-- ==== Sys2Proof/Word.lean ====
section
/-!
DEFINITION. The block's words: registers, addresses and results (spec/00_scope.md R9), bytes of data
memory (20_memory.md R50), register indices (10_state.md R20) and instruction words (30_encoding.md R83).
-/

namespace Sys2Proof

/-- A register value, result, address or PC: 64 bits (00_scope.md R9). -/
abbrev Word := BitVec 64

/-- One byte of data memory (20_memory.md R50). -/
abbrev Byte := BitVec 8

/-- A general-register index, 0 to 31 (10_state.md R20: "An instruction names a register by a 5-bit index"). -/
abbrev Reg := BitVec 5

/-- A 32-bit binary instruction word; bit 31 is the most significant (00_scope.md R8, 30_encoding.md R83). -/
abbrev Code := BitVec 32

end Sys2Proof
end

