-- ==== Sys2Proof/Config.lean ====
section
/-!
DEFINITION. The implementation parameters of spec/00_scope.md R7, and what a launch supplies from outside the
block: the program's slots (10_state.md R37) and the OPEN reset values (10_state.md R40).
The parameters a launch may choose are the fields of `Config`; `State` holds one `Config`, which no step changes,
so a statement about every state holds for every value of them (log 1).
-/

namespace Sys2Proof

/-- `ADDIS_C_POLICY`: what ADDIS does to C (41_immediate.md R162; decided `clear`, 92_eei_decisions.md D14). -/
inductive AddisCPolicy where
  | clear
  | preserve
deriving DecidableEq, Repr

/-- `SUB_V_RULE`: the operand list of the subtraction overflow check (40_arithmetic.md R125; decided `literal`, D15). -/
inductive SubVRule where
  | literal
  | negated
deriving DecidableEq, Repr

/-- The parameters of 00_scope.md R7 that are not fixed to one value. -/
structure Config where
  /-- `XZR_HARDWIRED` (decided `true`, D3). -/
  xzrHardwired : Bool
  /-- `MEM_SIZE`: number of data bytes (OPEN, at least 8, D8). -/
  memSize : Nat
  /-- `ALIGN_CHECK` (decided `false`, D9). -/
  alignCheck : Bool
  /-- `ADDIS_C_POLICY` (decided `clear`, D14). -/
  addisC : AddisCPolicy
  /-- `SUB_V_RULE` (decided `literal`, D15). -/
  subV : SubVRule
deriving DecidableEq, Repr

/-- `MEM_BASE = 0` (00_scope.md R7, D8). -/
def Config.memBase : Nat := 0

/-- `ENTRY_PC = 0` (00_scope.md R7, D13; 70_reset_and_hazards.md R301). -/
def Config.entryPc : Word := 0#64

/-- The bounds on `MEM_SIZE` (20_memory.md R51). -/
abbrev Config.wf (c : Config) : Prop := 8 ≤ c.memSize ∧ Config.memBase + c.memSize ≤ 2 ^ 64

/-- The decided value of every parameter (00_scope.md R7), with the OPEN memory size as an argument. -/
def Config.decided (memSize : Nat) : Config :=
  { xzrHardwired := true, memSize := memSize, alignCheck := false, addisC := .clear, subV := .literal }

/-- An operand-bundle instruction (30_encoding.md R80): a mnemonic and a bundle of optional fields. -/
structure Bundle where
  mnemonic : String
  rd : Option Reg := none
  rn : Option Reg := none
  rm : Option Reg := none
  rt : Option Reg := none
  /-- The "immediate/shift value": immediate constant, shift amount or byte offset. -/
  imm : Option Int := none
  /-- The branch target address, absolute, in instruction units. -/
  target : Option Word := none
  /-- The secondary-opcode discriminator: no effect (44_data_transfer.md R242). -/
  disc : Option (BitVec 2) := none
deriving DecidableEq, Repr

/-- One entry of `PROGRAM`: a 32-bit word or an operand bundle (10_state.md R37). -/
inductive Slot where
  | word (w : Code)
  | bundle (b : Bundle)
deriving DecidableEq, Repr

end Sys2Proof
end

