-- ==== Sys2Proof/Syntax.lean ====
section
/-!
DEFINITION. The decoded instruction: an operation of the catalog (spec/00_scope.md R3) with the fields the rules use
(30_encoding.md R99). Both inputs, the 32-bit word and the operand bundle, decode to this one type: immediates and
offsets are already 64-bit two's-complement values and branch targets already absolute instruction indices.
-/

namespace Sys2Proof

/-- One constructor for each row of spec/opcode_table.json, in the table's order. `rd`, `rn`, `rm`, `rt` are register
indices, `sh` a shift amount, `imm` a 64-bit immediate or byte offset, `target` a branch target. -/
inductive Instr where
  | add (rd rn rm : Reg)
  | adds (rd rn rm : Reg)
  | sub (rd rn rm : Reg)
  | subs (rd rn rm : Reg)
  | and (rd rn rm : Reg)
  | ands (rd rn rm : Reg)
  | orr (rd rn rm : Reg)
  | eor (rd rn rm : Reg)
  | lsl (rd rn : Reg) (sh : BitVec 6)
  | lsr (rd rn : Reg) (sh : BitVec 6)
  | addi (rd rn : Reg) (imm : Word)
  | addis (rd rn : Reg) (imm : Word)
  | subi (rd rn : Reg) (imm : Word)
  | subis (rd rn : Reg) (imm : Word)
  | andi (rd rn : Reg) (imm : Word)
  | andis (rd rn : Reg) (imm : Word)
  | orri (rd rn : Reg) (imm : Word)
  | eori (rd rn : Reg) (imm : Word)
  | b (target : Word)
  | bEq (target : Word)
  | bNe (target : Word)
  | bLt (target : Word)
  | bLe (target : Word)
  | bGt (target : Word)
  | bGe (target : Word)
  | bMi (target : Word)
  | bPl (target : Word)
  | bVs (target : Word)
  | bVc (target : Word)
  | cbnz (rt : Reg) (target : Word)
  | ldur (rt rn : Reg) (imm : Word)
  | stur (rt rn : Reg) (imm : Word)
  | ldurb (rt rn : Reg) (imm : Word)
  | sturb (rt rn : Reg) (imm : Word)
  | ldurh (rt rn : Reg) (imm : Word)
  | sturh (rt rn : Reg) (imm : Word)
  | ldursw (rt rn : Reg) (imm : Word)
  | sturw (rt rn : Reg) (imm : Word)
deriving DecidableEq, Repr

end Sys2Proof
end

