-- ==== Sys2Proof/WellFormed.lean ====
section
/-!
DEFINITION. Which decoded instructions a 32-bit word can carry at a given PC (spec/30_encoding.md R90 to R94). Register
indices and shift amounts fit their fields by their types; an immediate, an offset or a target may not.
Every decoded instruction is executable: an instruction too wide for a word still arrives as an operand bundle (R81).
-/

namespace Sys2Proof

/-- `v`, read as signed, lies in the range of an `n`-bit signed field: `-2^(n-1)` to `2^(n-1) - 1`. -/
def fitsSigned (n : Nat) (v : Word) : Bool :=
  decide (-(2 ^ (n - 1) : Int) ≤ v.toInt) && decide (v.toInt < (2 ^ (n - 1) : Int))

/-- The immediate fits ALU_immediate, "a signed 12-bit value from -2048 to 2047" (30_encoding.md R90). -/
def aluImmFits (imm : Word) : Bool := fitsSigned 12 imm

/-- The offset fits DT_address, "a signed 9-bit byte offset from -256 to 255" (30_encoding.md R91). -/
def dtOffsetFits (imm : Word) : Bool := fitsSigned 9 imm

/-- The target is reachable from `pc` by a 26-bit offset, "from -2^25 to 2^25 - 1" (30_encoding.md R92). -/
def branchFits (pc target : Word) : Bool := fitsSigned 26 (target - pc)

/-- The target is reachable from `pc` by a 19-bit offset, "from -2^18 to 2^18 - 1" (30_encoding.md R93). -/
def condBranchFits (pc target : Word) : Bool := fitsSigned 19 (target - pc)

/-- The instruction can be written as a 32-bit word standing at `pc`. -/
def Instr.wellFormed (pc : Word) : Instr → Bool
  | .add _ _ _ => true
  | .adds _ _ _ => true
  | .sub _ _ _ => true
  | .subs _ _ _ => true
  | .and _ _ _ => true
  | .ands _ _ _ => true
  | .orr _ _ _ => true
  | .eor _ _ _ => true
  | .lsl _ _ _ => true
  | .lsr _ _ _ => true
  | .addi _ _ imm => aluImmFits imm
  | .addis _ _ imm => aluImmFits imm
  | .subi _ _ imm => aluImmFits imm
  | .subis _ _ imm => aluImmFits imm
  | .andi _ _ imm => aluImmFits imm
  | .andis _ _ imm => aluImmFits imm
  | .orri _ _ imm => aluImmFits imm
  | .eori _ _ imm => aluImmFits imm
  | .b target => branchFits pc target
  | .bEq target => condBranchFits pc target
  | .bNe target => condBranchFits pc target
  | .bLt target => condBranchFits pc target
  | .bLe target => condBranchFits pc target
  | .bGt target => condBranchFits pc target
  | .bGe target => condBranchFits pc target
  | .bMi target => condBranchFits pc target
  | .bPl target => condBranchFits pc target
  | .bVs target => condBranchFits pc target
  | .bVc target => condBranchFits pc target
  | .cbnz _ target => condBranchFits pc target
  | .ldur _ _ imm => dtOffsetFits imm
  | .stur _ _ imm => dtOffsetFits imm
  | .ldurb _ _ imm => dtOffsetFits imm
  | .sturb _ _ imm => dtOffsetFits imm
  | .ldurh _ _ imm => dtOffsetFits imm
  | .sturh _ _ imm => dtOffsetFits imm
  | .ldursw _ _ imm => dtOffsetFits imm
  | .sturw _ _ imm => dtOffsetFits imm

end Sys2Proof
end

