-- ==== Sys2Proof/Decode.lean ====
section
/-!
DEFINITION. The catalog as hardware: the 38 operations, the opcode map (spec/30_encoding.md R96), the mnemonic lookup
(R82), decoding of words (R84 to R99) and of operand bundles (R80, R81), and the encoder of words.
Decoding is total: what is no instruction is rejected by name (`DecodeFault`).
-/

namespace Sys2Proof

/-! ## The catalog -/

/-- The operations of the catalog (00_scope.md R3), in the source's order. -/
inductive Op where
  | add
  | adds
  | sub
  | subs
  | and
  | ands
  | orr
  | eor
  | lsl
  | lsr
  | addi
  | addis
  | subi
  | subis
  | andi
  | andis
  | orri
  | eori
  | b
  | bEq
  | bNe
  | bLt
  | bLe
  | bGt
  | bGe
  | bMi
  | bPl
  | bVs
  | bVc
  | cbnz
  | ldur
  | stur
  | ldurb
  | sturb
  | ldurh
  | sturh
  | ldursw
  | sturw
deriving DecidableEq, Repr

/-- The whole catalog: one row per mnemonic (30_encoding.md R82). -/
def Op.all : List Op :=
  [.add, .adds, .sub, .subs, .and, .ands, .orr, .eor, .lsl, .lsr,
   .addi, .addis, .subi, .subis, .andi, .andis, .orri, .eori,
   .b, .bEq, .bNe, .bLt, .bLe, .bGt, .bGe, .bMi, .bPl, .bVs, .bVc, .cbnz,
   .ldur, .stur, .ldurb, .sturb, .ldurh, .sturh, .ldursw, .sturw]

/-- The mnemonic of 00_scope.md R3, in capitals. -/
def Op.name : Op → String
  | .add => "ADD"
  | .adds => "ADDS"
  | .sub => "SUB"
  | .subs => "SUBS"
  | .and => "AND"
  | .ands => "ANDS"
  | .orr => "ORR"
  | .eor => "EOR"
  | .lsl => "LSL"
  | .lsr => "LSR"
  | .addi => "ADDI"
  | .addis => "ADDIS"
  | .subi => "SUBI"
  | .subis => "SUBIS"
  | .andi => "ANDI"
  | .andis => "ANDIS"
  | .orri => "ORRI"
  | .eori => "EORI"
  | .b => "B"
  | .bEq => "B.EQ"
  | .bNe => "B.NE"
  | .bLt => "B.LT"
  | .bLe => "B.LE"
  | .bGt => "B.GT"
  | .bGe => "B.GE"
  | .bMi => "B.MI"
  | .bPl => "B.PL"
  | .bVs => "B.VS"
  | .bVc => "B.VC"
  | .cbnz => "CBNZ"
  | .ldur => "LDUR"
  | .stur => "STUR"
  | .ldurb => "LDURB"
  | .sturb => "STURB"
  | .ldurh => "LDURH"
  | .sturh => "STURH"
  | .ldursw => "LDURSW"
  | .sturw => "STURW"

/-- The match column of the opcode map (30_encoding.md R96). -/
def Op.pattern : Op → Code
  | .add => 0x8B000000#32
  | .adds => 0xAB000000#32
  | .sub => 0xCB000000#32
  | .subs => 0xEB000000#32
  | .and => 0x8A000000#32
  | .ands => 0xEA000000#32
  | .orr => 0xAA000000#32
  | .eor => 0xCA000000#32
  | .lsl => 0xD3600000#32
  | .lsr => 0xD3400000#32
  | .addi => 0x91000000#32
  | .addis => 0xB1000000#32
  | .subi => 0xD1000000#32
  | .subis => 0xF1000000#32
  | .andi => 0x92000000#32
  | .andis => 0xF2000000#32
  | .orri => 0xB2000000#32
  | .eori => 0xD2000000#32
  | .b => 0x14000000#32
  | .bEq => 0x54000000#32
  | .bNe => 0x54000001#32
  | .bLt => 0x5400000B#32
  | .bLe => 0x5400000D#32
  | .bGt => 0x5400000C#32
  | .bGe => 0x5400000A#32
  | .bMi => 0x54000004#32
  | .bPl => 0x54000005#32
  | .bVs => 0x54000006#32
  | .bVc => 0x54000007#32
  | .cbnz => 0xB5000000#32
  | .ldur => 0xF8400000#32
  | .stur => 0xF8000000#32
  | .ldurb => 0x38400000#32
  | .sturb => 0x38000000#32
  | .ldurh => 0x78400000#32
  | .sturh => 0x78000000#32
  | .ldursw => 0xB8800000#32
  | .sturw => 0xB8000000#32

/-- The mask column of the opcode map (30_encoding.md R96); it covers the fields that must be zero (R97). -/
def Op.mask : Op → Code
  | .add => 0xFFE0FC00#32
  | .adds => 0xFFE0FC00#32
  | .sub => 0xFFE0FC00#32
  | .subs => 0xFFE0FC00#32
  | .and => 0xFFE0FC00#32
  | .ands => 0xFFE0FC00#32
  | .orr => 0xFFE0FC00#32
  | .eor => 0xFFE0FC00#32
  | .lsl => 0xFFFF0000#32
  | .lsr => 0xFFFF0000#32
  | .addi => 0xFFC00000#32
  | .addis => 0xFFC00000#32
  | .subi => 0xFFC00000#32
  | .subis => 0xFFC00000#32
  | .andi => 0xFFC00000#32
  | .andis => 0xFFC00000#32
  | .orri => 0xFFC00000#32
  | .eori => 0xFFC00000#32
  | .b => 0xFC000000#32
  | .bEq => 0xFF00001F#32
  | .bNe => 0xFF00001F#32
  | .bLt => 0xFF00001F#32
  | .bLe => 0xFF00001F#32
  | .bGt => 0xFF00001F#32
  | .bGe => 0xFF00001F#32
  | .bMi => 0xFF00001F#32
  | .bPl => 0xFF00001F#32
  | .bVs => 0xFF00001F#32
  | .bVc => 0xFF00001F#32
  | .cbnz => 0xFF000000#32
  | .ldur => 0xFFE00C00#32
  | .stur => 0xFFE00C00#32
  | .ldurb => 0xFFE00C00#32
  | .sturb => 0xFFE00C00#32
  | .ldurh => 0xFFE00C00#32
  | .sturh => 0xFFE00C00#32
  | .ldursw => 0xFFE00C00#32
  | .sturw => 0xFFE00C00#32

/-- "a word w is the instruction if and only if `w AND mask = match`" (30_encoding.md R96). -/
def Op.accepts (o : Op) (w : Code) : Bool := w &&& o.mask == o.pattern

/-- The row of the opcode map that a word matches (30_encoding.md R89), if any. -/
def findWord (w : Code) : Option Op := Op.all.find? (·.accepts w)

/-- A mnemonic as the lookup compares it: its characters, each ASCII letter in capitals (log 10). -/
def foldCase (m : String) : List Char := m.toList.map Char.toUpper

/-- The catalog's `find`: "case-insensitive lookup" (30_encoding.md R82). -/
def findMnemonic (m : String) : Option Op := Op.all.find? (fun o => foldCase m == o.name.toList)

/-! ## The fields of a word -/

/-- `word[hi:lo]` with `hi = lo + len - 1` (00_scope.md R8). -/
def bits (lo len : Nat) (w : Code) : BitVec len := w.extractLsb' lo len

/-- `Rd` or `Rt`, `word[4:0]` (30_encoding.md R84 to R88). -/
def fieldRd (w : Code) : Reg := bits 0 5 w

/-- `Rn`, `word[9:5]`. -/
def fieldRn (w : Code) : Reg := bits 5 5 w

/-- `Rm`, `word[20:16]`. -/
def fieldRm (w : Code) : Reg := bits 16 5 w

/-- The shift amount, `word[15:10]` (30_encoding.md R94). -/
def fieldShamt (w : Code) : BitVec 6 := bits 10 6 w

/-- `sext_64(word[21:10])` (30_encoding.md R90). -/
def fieldAluImm (w : Code) : Word := (bits 10 12 w).signExtend 64

/-- `sext_64(word[20:12])` (30_encoding.md R91). -/
def fieldDtOffset (w : Code) : Word := (bits 12 9 w).signExtend 64

/-- `pc + sext_64(word[25:0])` modulo 2^64 (30_encoding.md R92). -/
def branchTarget (pc : Word) (w : Code) : Word := pc + (bits 0 26 w).signExtend 64

/-- `pc + sext_64(word[23:5])` modulo 2^64 (30_encoding.md R93). -/
def condBranchTarget (pc : Word) (w : Code) : Word := pc + (bits 5 19 w).signExtend 64

/-! ## Decoding -/

/-- Why a slot holds no instruction; the two decode faults of 60_exceptions.md R270. -/
inductive DecodeFault where
  /-- Code 1: no catalog entry. `info` is the word, zero-extended, or 0 for a bundle (R270, R271). -/
  | unknownMnemonic (info : Word)
  /-- Code 2: a bundle without a field its format requires, or with one out of range (R272). -/
  | invalidOperandBundle
deriving DecidableEq, Repr

/-- The instruction that a word of the operation's row carries at `pc` (30_encoding.md R99). -/
def Op.ofWord (pc : Word) (w : Code) : Op → Instr
  | .add => .add (fieldRd w) (fieldRn w) (fieldRm w)
  | .adds => .adds (fieldRd w) (fieldRn w) (fieldRm w)
  | .sub => .sub (fieldRd w) (fieldRn w) (fieldRm w)
  | .subs => .subs (fieldRd w) (fieldRn w) (fieldRm w)
  | .and => .and (fieldRd w) (fieldRn w) (fieldRm w)
  | .ands => .ands (fieldRd w) (fieldRn w) (fieldRm w)
  | .orr => .orr (fieldRd w) (fieldRn w) (fieldRm w)
  | .eor => .eor (fieldRd w) (fieldRn w) (fieldRm w)
  | .lsl => .lsl (fieldRd w) (fieldRn w) (fieldShamt w)
  | .lsr => .lsr (fieldRd w) (fieldRn w) (fieldShamt w)
  | .addi => .addi (fieldRd w) (fieldRn w) (fieldAluImm w)
  | .addis => .addis (fieldRd w) (fieldRn w) (fieldAluImm w)
  | .subi => .subi (fieldRd w) (fieldRn w) (fieldAluImm w)
  | .subis => .subis (fieldRd w) (fieldRn w) (fieldAluImm w)
  | .andi => .andi (fieldRd w) (fieldRn w) (fieldAluImm w)
  | .andis => .andis (fieldRd w) (fieldRn w) (fieldAluImm w)
  | .orri => .orri (fieldRd w) (fieldRn w) (fieldAluImm w)
  | .eori => .eori (fieldRd w) (fieldRn w) (fieldAluImm w)
  | .b => .b (branchTarget pc w)
  | .bEq => .bEq (condBranchTarget pc w)
  | .bNe => .bNe (condBranchTarget pc w)
  | .bLt => .bLt (condBranchTarget pc w)
  | .bLe => .bLe (condBranchTarget pc w)
  | .bGt => .bGt (condBranchTarget pc w)
  | .bGe => .bGe (condBranchTarget pc w)
  | .bMi => .bMi (condBranchTarget pc w)
  | .bPl => .bPl (condBranchTarget pc w)
  | .bVs => .bVs (condBranchTarget pc w)
  | .bVc => .bVc (condBranchTarget pc w)
  | .cbnz => .cbnz (fieldRd w) (condBranchTarget pc w)
  | .ldur => .ldur (fieldRd w) (fieldRn w) (fieldDtOffset w)
  | .stur => .stur (fieldRd w) (fieldRn w) (fieldDtOffset w)
  | .ldurb => .ldurb (fieldRd w) (fieldRn w) (fieldDtOffset w)
  | .sturb => .sturb (fieldRd w) (fieldRn w) (fieldDtOffset w)
  | .ldurh => .ldurh (fieldRd w) (fieldRn w) (fieldDtOffset w)
  | .sturh => .sturh (fieldRd w) (fieldRn w) (fieldDtOffset w)
  | .ldursw => .ldursw (fieldRd w) (fieldRn w) (fieldDtOffset w)
  | .sturw => .sturw (fieldRd w) (fieldRn w) (fieldDtOffset w)

/-- The binary decoder: the instruction a 32-bit word stands for at `pc`, `none` for an illegal word (30_encoding.md
R89, R98, R99). -/
def decodeWord (pc : Word) (w : Code) : Option Instr := (findWord w).map (Op.ofWord pc w)

/-- A bundle's immediate or offset as it enters the datapath, `imm mod 2^64`; `none` if absent or outside the signed
64-bit range (30_encoding.md R81). -/
def Bundle.imm64 (b : Bundle) : Option Word :=
  match b.imm with
  | some k => if -(2 ^ 63) ≤ k ∧ k ≤ 2 ^ 63 - 1 then some (BitVec.ofInt 64 k) else none
  | none => none

/-- A bundle's shift amount; `none` if absent or outside 0 to 63 (30_encoding.md R81). -/
def Bundle.shamt (b : Bundle) : Option (BitVec 6) :=
  match b.imm with
  | some k => if 0 ≤ k ∧ k ≤ 63 then some (BitVec.ofInt 6 k) else none
  | none => none

/-- Three required fields, or nothing. -/
def require3 {α β γ : Type} (f : α → β → γ → Instr) (a : Option α) (b : Option β) (c : Option γ) : Option Instr :=
  match a, b, c with
  | some x, some y, some z => some (f x y z)
  | _, _, _ => none

/-- Two required fields, or nothing. -/
def require2 {α β : Type} (f : α → β → Instr) (a : Option α) (b : Option β) : Option Instr :=
  match a, b with
  | some x, some y => some (f x y)
  | _, _ => none

/-- The instruction that a bundle carries for an operation: `none` if a required field is missing or out of range.
Fields the format does not use, `disc` among them, are ignored (30_encoding.md R80, R81). -/
def Op.ofBundle (b : Bundle) : Op → Option Instr
  | .add => require3 .add b.rd b.rn b.rm
  | .adds => require3 .adds b.rd b.rn b.rm
  | .sub => require3 .sub b.rd b.rn b.rm
  | .subs => require3 .subs b.rd b.rn b.rm
  | .and => require3 .and b.rd b.rn b.rm
  | .ands => require3 .ands b.rd b.rn b.rm
  | .orr => require3 .orr b.rd b.rn b.rm
  | .eor => require3 .eor b.rd b.rn b.rm
  | .lsl => require3 .lsl b.rd b.rn b.shamt
  | .lsr => require3 .lsr b.rd b.rn b.shamt
  | .addi => require3 .addi b.rd b.rn b.imm64
  | .addis => require3 .addis b.rd b.rn b.imm64
  | .subi => require3 .subi b.rd b.rn b.imm64
  | .subis => require3 .subis b.rd b.rn b.imm64
  | .andi => require3 .andi b.rd b.rn b.imm64
  | .andis => require3 .andis b.rd b.rn b.imm64
  | .orri => require3 .orri b.rd b.rn b.imm64
  | .eori => require3 .eori b.rd b.rn b.imm64
  | .b => b.target.map .b
  | .bEq => b.target.map .bEq
  | .bNe => b.target.map .bNe
  | .bLt => b.target.map .bLt
  | .bLe => b.target.map .bLe
  | .bGt => b.target.map .bGt
  | .bGe => b.target.map .bGe
  | .bMi => b.target.map .bMi
  | .bPl => b.target.map .bPl
  | .bVs => b.target.map .bVs
  | .bVc => b.target.map .bVc
  | .cbnz => require2 .cbnz b.rt b.target
  | .ldur => require3 .ldur b.rt b.rn b.imm64
  | .stur => require3 .stur b.rt b.rn b.imm64
  | .ldurb => require3 .ldurb b.rt b.rn b.imm64
  | .sturb => require3 .sturb b.rt b.rn b.imm64
  | .ldurh => require3 .ldurh b.rt b.rn b.imm64
  | .sturh => require3 .sturh b.rt b.rn b.imm64
  | .ldursw => require3 .ldursw b.rt b.rn b.imm64
  | .sturw => require3 .sturw b.rt b.rn b.imm64

/-- The bundle decoder: the mnemonic first, then the fields (60_exceptions.md R271, R272, R276). -/
def decodeBundle (b : Bundle) : Except DecodeFault Instr :=
  match findMnemonic b.mnemonic with
  | none => .error (.unknownMnemonic 0#64)
  | some o =>
    match o.ofBundle b with
    | none => .error .invalidOperandBundle
    | some i => .ok i

/-- Decoding of one program slot at `pc` (30_encoding.md R99). -/
def decodeSlot (pc : Word) : Slot → Except DecodeFault Instr
  | .word w =>
    match decodeWord pc w with
    | none => .error (.unknownMnemonic (w.setWidth 64))
    | some i => .ok i
  | .bundle b => decodeBundle b

/-- The operation of a decoded instruction. -/
def Instr.op : Instr → Op
  | .add _ _ _ => .add
  | .adds _ _ _ => .adds
  | .sub _ _ _ => .sub
  | .subs _ _ _ => .subs
  | .and _ _ _ => .and
  | .ands _ _ _ => .ands
  | .orr _ _ _ => .orr
  | .eor _ _ _ => .eor
  | .lsl _ _ _ => .lsl
  | .lsr _ _ _ => .lsr
  | .addi _ _ _ => .addi
  | .addis _ _ _ => .addis
  | .subi _ _ _ => .subi
  | .subis _ _ _ => .subis
  | .andi _ _ _ => .andi
  | .andis _ _ _ => .andis
  | .orri _ _ _ => .orri
  | .eori _ _ _ => .eori
  | .b _ => .b
  | .bEq _ => .bEq
  | .bNe _ => .bNe
  | .bLt _ => .bLt
  | .bLe _ => .bLe
  | .bGt _ => .bGt
  | .bGe _ => .bGe
  | .bMi _ => .bMi
  | .bPl _ => .bPl
  | .bVs _ => .bVs
  | .bVc _ => .bVc
  | .cbnz _ _ => .cbnz
  | .ldur _ _ _ => .ldur
  | .stur _ _ _ => .stur
  | .ldurb _ _ _ => .ldurb
  | .sturb _ _ _ => .sturb
  | .ldurh _ _ _ => .ldurh
  | .sturh _ _ _ => .sturh
  | .ldursw _ _ _ => .ldursw
  | .sturw _ _ _ => .sturw

/-! ## Encoding -/

/-- R-format (30_encoding.md R84): opcode, Rm, shamt, Rn, Rd. -/
def encodeR (opcode : BitVec 11) (rm : Reg) (shamt : BitVec 6) (rn rd : Reg) : Code :=
  (opcode ++ rm ++ shamt ++ rn ++ rd).cast rfl

/-- I-format (30_encoding.md R85): opcode, ALU_immediate, Rn, Rd. -/
def encodeI (opcode : BitVec 10) (imm : Word) (rn rd : Reg) : Code :=
  (opcode ++ imm.setWidth 12 ++ rn ++ rd).cast rfl

/-- D-format (30_encoding.md R86): opcode, DT_address, op = 00, Rn, Rt. -/
def encodeD (opcode : BitVec 11) (imm : Word) (rn rt : Reg) : Code :=
  (opcode ++ imm.setWidth 9 ++ 0#2 ++ rn ++ rt).cast rfl

/-- B-format (30_encoding.md R87): opcode, BR_address. -/
def encodeB (opcode : BitVec 6) (offset : Word) : Code :=
  (opcode ++ offset.setWidth 26).cast rfl

/-- CB-format (30_encoding.md R88): opcode, COND_BR_address, Rt or cond. -/
def encodeCB (opcode : BitVec 8) (offset : Word) (rt : BitVec 5) : Code :=
  (opcode ++ offset.setWidth 19 ++ rt).cast rfl

/-- The word of a well-formed instruction standing at `pc`, from the opcode column of 30_encoding.md R96 and the
condition numbers of R95. -/
def encode (pc : Word) : Instr → Code
  | .add rd rn rm => encodeR 0b10001011000#11 rm 0#6 rn rd
  | .adds rd rn rm => encodeR 0b10101011000#11 rm 0#6 rn rd
  | .sub rd rn rm => encodeR 0b11001011000#11 rm 0#6 rn rd
  | .subs rd rn rm => encodeR 0b11101011000#11 rm 0#6 rn rd
  | .and rd rn rm => encodeR 0b10001010000#11 rm 0#6 rn rd
  | .ands rd rn rm => encodeR 0b11101010000#11 rm 0#6 rn rd
  | .orr rd rn rm => encodeR 0b10101010000#11 rm 0#6 rn rd
  | .eor rd rn rm => encodeR 0b11001010000#11 rm 0#6 rn rd
  | .lsl rd rn sh => encodeR 0b11010011011#11 0#5 sh rn rd
  | .lsr rd rn sh => encodeR 0b11010011010#11 0#5 sh rn rd
  | .addi rd rn imm => encodeI 0b1001000100#10 imm rn rd
  | .addis rd rn imm => encodeI 0b1011000100#10 imm rn rd
  | .subi rd rn imm => encodeI 0b1101000100#10 imm rn rd
  | .subis rd rn imm => encodeI 0b1111000100#10 imm rn rd
  | .andi rd rn imm => encodeI 0b1001001000#10 imm rn rd
  | .andis rd rn imm => encodeI 0b1111001000#10 imm rn rd
  | .orri rd rn imm => encodeI 0b1011001000#10 imm rn rd
  | .eori rd rn imm => encodeI 0b1101001000#10 imm rn rd
  | .b target => encodeB 0b000101#6 (target - pc)
  | .bEq target => encodeCB 0b01010100#8 (target - pc) 0#5
  | .bNe target => encodeCB 0b01010100#8 (target - pc) 1#5
  | .bLt target => encodeCB 0b01010100#8 (target - pc) 11#5
  | .bLe target => encodeCB 0b01010100#8 (target - pc) 13#5
  | .bGt target => encodeCB 0b01010100#8 (target - pc) 12#5
  | .bGe target => encodeCB 0b01010100#8 (target - pc) 10#5
  | .bMi target => encodeCB 0b01010100#8 (target - pc) 4#5
  | .bPl target => encodeCB 0b01010100#8 (target - pc) 5#5
  | .bVs target => encodeCB 0b01010100#8 (target - pc) 6#5
  | .bVc target => encodeCB 0b01010100#8 (target - pc) 7#5
  | .cbnz rt target => encodeCB 0b10110101#8 (target - pc) rt
  | .ldur rt rn imm => encodeD 0b11111000010#11 imm rn rt
  | .stur rt rn imm => encodeD 0b11111000000#11 imm rn rt
  | .ldurb rt rn imm => encodeD 0b00111000010#11 imm rn rt
  | .sturb rt rn imm => encodeD 0b00111000000#11 imm rn rt
  | .ldurh rt rn imm => encodeD 0b01111000010#11 imm rn rt
  | .sturh rt rn imm => encodeD 0b01111000000#11 imm rn rt
  | .ldursw rt rn imm => encodeD 0b10111000100#11 imm rn rt
  | .sturw rt rn imm => encodeD 0b10111000000#11 imm rn rt

/-- The operand bundle that carries a decoded instruction: exactly the fields its format requires (30_encoding.md R81),
immediates and offsets as signed values. Every decoded instruction has one, also where no word can hold it. -/
def Instr.bundle (i : Instr) : Bundle :=
  match i with
  | .add rd rn rm => { mnemonic := Op.name .add, rd := some rd, rn := some rn, rm := some rm }
  | .adds rd rn rm => { mnemonic := Op.name .adds, rd := some rd, rn := some rn, rm := some rm }
  | .sub rd rn rm => { mnemonic := Op.name .sub, rd := some rd, rn := some rn, rm := some rm }
  | .subs rd rn rm => { mnemonic := Op.name .subs, rd := some rd, rn := some rn, rm := some rm }
  | .and rd rn rm => { mnemonic := Op.name .and, rd := some rd, rn := some rn, rm := some rm }
  | .ands rd rn rm => { mnemonic := Op.name .ands, rd := some rd, rn := some rn, rm := some rm }
  | .orr rd rn rm => { mnemonic := Op.name .orr, rd := some rd, rn := some rn, rm := some rm }
  | .eor rd rn rm => { mnemonic := Op.name .eor, rd := some rd, rn := some rn, rm := some rm }
  | .lsl rd rn sh => { mnemonic := Op.name .lsl, rd := some rd, rn := some rn, imm := some sh.toNat }
  | .lsr rd rn sh => { mnemonic := Op.name .lsr, rd := some rd, rn := some rn, imm := some sh.toNat }
  | .addi rd rn imm => { mnemonic := Op.name .addi, rd := some rd, rn := some rn, imm := some imm.toInt }
  | .addis rd rn imm => { mnemonic := Op.name .addis, rd := some rd, rn := some rn, imm := some imm.toInt }
  | .subi rd rn imm => { mnemonic := Op.name .subi, rd := some rd, rn := some rn, imm := some imm.toInt }
  | .subis rd rn imm => { mnemonic := Op.name .subis, rd := some rd, rn := some rn, imm := some imm.toInt }
  | .andi rd rn imm => { mnemonic := Op.name .andi, rd := some rd, rn := some rn, imm := some imm.toInt }
  | .andis rd rn imm => { mnemonic := Op.name .andis, rd := some rd, rn := some rn, imm := some imm.toInt }
  | .orri rd rn imm => { mnemonic := Op.name .orri, rd := some rd, rn := some rn, imm := some imm.toInt }
  | .eori rd rn imm => { mnemonic := Op.name .eori, rd := some rd, rn := some rn, imm := some imm.toInt }
  | .b target => { mnemonic := Op.name .b, target := some target }
  | .bEq target => { mnemonic := Op.name .bEq, target := some target }
  | .bNe target => { mnemonic := Op.name .bNe, target := some target }
  | .bLt target => { mnemonic := Op.name .bLt, target := some target }
  | .bLe target => { mnemonic := Op.name .bLe, target := some target }
  | .bGt target => { mnemonic := Op.name .bGt, target := some target }
  | .bGe target => { mnemonic := Op.name .bGe, target := some target }
  | .bMi target => { mnemonic := Op.name .bMi, target := some target }
  | .bPl target => { mnemonic := Op.name .bPl, target := some target }
  | .bVs target => { mnemonic := Op.name .bVs, target := some target }
  | .bVc target => { mnemonic := Op.name .bVc, target := some target }
  | .cbnz rt target => { mnemonic := Op.name .cbnz, rt := some rt, target := some target }
  | .ldur rt rn imm => { mnemonic := Op.name .ldur, rt := some rt, rn := some rn, imm := some imm.toInt }
  | .stur rt rn imm => { mnemonic := Op.name .stur, rt := some rt, rn := some rn, imm := some imm.toInt }
  | .ldurb rt rn imm => { mnemonic := Op.name .ldurb, rt := some rt, rn := some rn, imm := some imm.toInt }
  | .sturb rt rn imm => { mnemonic := Op.name .sturb, rt := some rt, rn := some rn, imm := some imm.toInt }
  | .ldurh rt rn imm => { mnemonic := Op.name .ldurh, rt := some rt, rn := some rn, imm := some imm.toInt }
  | .sturh rt rn imm => { mnemonic := Op.name .sturh, rt := some rt, rn := some rn, imm := some imm.toInt }
  | .ldursw rt rn imm => { mnemonic := Op.name .ldursw, rt := some rt, rn := some rn, imm := some imm.toInt }
  | .sturw rt rn imm => { mnemonic := Op.name .sturw, rt := some rt, rn := some rn, imm := some imm.toInt }

/-! ## The host's entry point -/

/-- The instruction the decoder reads from a table word of `nbits` bits, standing at the entry point (log 9). -/
def decodeTableWord (nbits w : Nat) : Option Instr :=
  decodeWord Config.entryPc (BitVec.ofNat 32 (w % 2 ^ nbits))

end Sys2Proof
end

