-- ==== Sys2Proof/Machine/State.lean ====
section
/-!
DEFINITION. The state of the block (spec/10_state.md, opening tuple), plain data: general registers, flag register,
program counter, data memory, fault-status record, the program store, and the launch's parameters (log 1). Also the
ways a step can have no next state, and the state after reset (R40).
-/

namespace Sys2Proof.Machine

/-- The flag register (10_state.md R26): negative, zero, carry, overflow. -/
structure Flags where
  n : Bool
  z : Bool
  c : Bool
  v : Bool
deriving DecidableEq, Repr

/-- The fault-status record (10_state.md R35). -/
structure FaultStatus where
  faulted : Bool
  code : BitVec 3
  fpc : Word
  info : Word
deriving DecidableEq, Repr

/-- The record after reset (10_state.md R35, R40): `faulted = 0, code = 0, fpc = 0, info = 0`. -/
def FaultStatus.clear : FaultStatus := { faulted := false, code := 0#3, fpc := 0#64, info := 0#64 }

/-- Data memory (20_memory.md R50): the bytes that differ from `Memory.fill`, addresses strictly rising. -/
abbrev Memory := List Host.Cell

/-- What an unlisted address reads as (log 5: DESIGN CHOICE, the spec leaves `INIT_MEM` open). -/
def Memory.fill : Byte := 0#8

/-- The one canonical form: addresses strictly rising, and no entry equal to what an unlisted address reads as. -/
abbrev Memory.wf (m : Memory) : Prop :=
  List.Pairwise (fun p q => p.1 < q.1) m ∧ ∀ p ∈ m, p.2 ≠ Memory.fill

/-- The machine. -/
structure State where
  /-- X0 to X31 as stored; reads and writes go through the ports of Ops.lean (10_state.md R20, R22). -/
  regs : Vector Word 32
  /-- `FLAGS` (R26). -/
  flags : Flags
  /-- The program counter, counting instructions (R31). -/
  pc : Word
  /-- The data memory (20_memory.md R50). -/
  mem : Memory
  /-- The fault-status record (R35). -/
  fault : FaultStatus
  /-- `PROGRAM`, read-only to every instruction (R37). -/
  program : List Slot
  /-- The launch's parameters, read-only (00_scope.md R7; log 1). -/
  cfg : Config
deriving DecidableEq, Repr

/-- Why a state has no step. Both are the spec's own conditions of 70_reset_and_hazards.md R303. -/
inductive Fault where
  /-- Raised by `step` alone: `faulted = 1`, "a state with `faulted = 1` has no step" (10_state.md R38, R278). Safe:
  the spec gives the state no step either. -/
  | haltedByFault
  /-- Raised by `step` alone: `pc >= len(PROGRAM)`, the run has ended normally (R303). Safe: the spec gives the state
  no step either. -/
  | endOfProgram
deriving DecidableEq, Repr

/-- Why an instruction has no meaning. -/
inductive Refusal where
  /-- Raised by an arm of `exec` for an instruction without a meaning. No arm of this model answers it. Safe. -/
  | notModelled (mnemonic : String)
deriving DecidableEq, Repr

/-- The machine right after reset (10_state.md R40), with nothing loaded. The spec fixes `pc`, `fault` and that x[31]
reads 0; the OPEN items stand at the values of the log: registers 0 (log 3), flags 0 (log 4), memory with nothing
listed (log 5), no program (log 6), `MEM_SIZE` 4096 (log 2). -/
def State.reset : State where
  regs := Vector.replicate 32 0#64
  flags := { n := false, z := false, c := false, v := false }
  pc := Config.entryPc
  mem := []
  fault := FaultStatus.clear
  program := []
  cfg := Config.decided 4096

end Sys2Proof.Machine
end

