-- ==== Sys2Proof/Machine/Flags.lean ====
section
/-!
DEFINITION. The flag functions and the flag generator (spec/40_arithmetic.md R122 to R126), the flag register's write
port (10_state.md R26) and the condition predicates (42_branch.md R191).
-/

namespace Sys2Proof.Machine

/-- The sign of a value, its bit 63 (00_scope.md R9). -/
def sign (v : Word) : Bool := v.getLsbD 63

/-- `neg64(v) = (2^64 - v) mod 2^64` (00_scope.md R9). -/
def neg64 (v : Word) : Word := BitVec.ofNat 64 ((2 ^ 64 - v.toNat) % 2 ^ 64)

/-- `carry(p, q)`: the unsigned 64-bit sum overflows 64 bits (R122). -/
def carry (p q : Word) : Bool := decide (2 ^ 64 ≤ p.toNat + q.toNat)

/-- `ovf(p, q, r)`: "both operands have the same sign and the result's sign differs from theirs" (R123). -/
def ovf (p q r : Word) : Bool := sign p == sign q && sign r != sign p

/-- `nflag(r) = r[63]` (R124). -/
def nflag (r : Word) : Bool := sign r

/-- `zflag(r)` (R124). -/
def zflag (r : Word) : Bool := r == 0#64

/-- `vsub(a, b, r)`: the overflow check of a subtraction under either value of `SUB_V_RULE` (R125). -/
def vsub (rule : SubVRule) (a b r : Word) : Bool :=
  match rule with
  | .literal => ovf a b r
  | .negated => ovf a (neg64 b) r

/-- What the flag register's write port receives: `fwe` and `fwd`, both in the order N, Z, C, V (10_state.md R26). -/
structure FlagWrite where
  fwe : Flags
  fwd : Flags
deriving DecidableEq, Repr

/-- `fwe = 0000`: no flag is written. -/
def FlagWrite.none : FlagWrite := { fwe := ⟨false, false, false, false⟩, fwd := ⟨false, false, false, false⟩ }

/-- All four flags are written (`fwe = 1111`). -/
def FlagWrite.all (f : Flags) : FlagWrite := { fwe := ⟨true, true, true, true⟩, fwd := f }

/-- "A flag whose enable is 1 takes its new value at the commit; a flag whose enable is 0 keeps its value" (10_state.md
R26). -/
def Flags.write (old : Flags) (w : FlagWrite) : Flags where
  n := if w.fwe.n then w.fwd.n else old.n
  z := if w.fwe.z then w.fwd.z else old.z
  c := if w.fwe.c then w.fwd.c else old.c
  v := if w.fwe.v then w.fwd.v else old.v

/-- The flag generator's modes (R120, R126). -/
inductive FlagMode where
  | none
  | addCV
  | addV
  | subCV
deriving DecidableEq, Repr

/-- The flag generator: flag values and write enables from the pre-mutation operands and the result (R126). -/
def flagGen (cfg : Config) (mode : FlagMode) (a b y : Word) : FlagWrite :=
  match mode with
  | .none => FlagWrite.none
  | .addCV => FlagWrite.all ⟨nflag y, zflag y, carry a b, ovf a b y⟩
  | .addV =>
    { fwe := ⟨true, true, cfg.addisC == .clear, true⟩, fwd := ⟨nflag y, zflag y, false, ovf a b y⟩ }
  | .subCV => FlagWrite.all ⟨nflag y, zflag y, carry a (neg64 b), vsub cfg.subV a b y⟩

/-- The conditions of B.cond (42_branch.md R191). -/
inductive Cond where
  | eq
  | ne
  | lt
  | le
  | gt
  | ge
  | mi
  | pl
  | vs
  | vc
deriving DecidableEq, Repr

/-- "EQ=Z; NE=¬Z; LT=(N≠V); LE=¬(¬Z ∧ N=V); GT=(¬Z ∧ N=V); GE=(N=V); MI=N; PL=¬N; VS=V; VC=¬V" (42_branch.md R191). -/
def Cond.holds (f : Flags) : Cond → Bool
  | .eq => f.z
  | .ne => !f.z
  | .lt => f.n != f.v
  | .le => !(!f.z && f.n == f.v)
  | .gt => !f.z && f.n == f.v
  | .ge => f.n == f.v
  | .mi => f.n
  | .pl => !f.n
  | .vs => f.v
  | .vc => !f.v

end Sys2Proof.Machine
end

