-- ==== Sys2Proof/Machine/Ops.lean ====
section
/-!
DEFINITION. The named operations over registers and memory: the register-file ports (spec/10_state.md R22, R23), byte
and multi-byte memory access (20_memory.md R51 to R56), the effects of a step and their atomic commit (10_state.md R38,
R39), and fault entry (60_exceptions.md R270, R277). There is no return from a fault (R279).
-/

namespace Sys2Proof.Machine

/-! ## The register file -/

/-- A read port: register 31 reads 0 when `XZR_HARDWIRED` (10_state.md R22, R23). -/
def readPort (hardwired : Bool) (regs : Vector Word 32) (ra : Reg) : Word :=
  if hardwired && ra == 31#5 then 0#64 else regs[ra.toNat]'ra.isLt

/-- The write port: a write to register 31 is discarded when `XZR_HARDWIRED` (10_state.md R22, R23). -/
def writePort (hardwired : Bool) (regs : Vector Word 32) (wa : Reg) (wd : Word) : Vector Word 32 :=
  if hardwired && wa == 31#5 then regs else regs.set wa.toNat wd wa.isLt

/-- `x[i]`, a read of general register `i` (00_scope.md R12). -/
def State.x (s : State) (i : Reg) : Word := readPort s.cfg.xzrHardwired s.regs i

/-! ## Data memory -/

/-- `mem[a]`: the byte at one address. -/
def Memory.read : Memory → Nat → Byte
  | [], _ => Memory.fill
  | (a', v) :: rest, a => if a = a' then v else Memory.read rest a

/-- The entry for a byte, or none when it holds what an unlisted address reads as. -/
def Memory.cell (a : Nat) (v : Byte) : Memory := if v = Memory.fill then [] else [(a, v)]

/-- `mem[a] <- v`, keeping the canonical form. -/
def Memory.write : Memory → Nat → Byte → Memory
  | [], a, v => Memory.cell a v
  | (a', v') :: rest, a, v =>
    if a < a' then Memory.cell a v ++ (a', v') :: rest
    else if a = a' then Memory.cell a v ++ rest
    else (a', v') :: Memory.write rest a v

/-- `MemRead(ea, n)`: the `n` bytes from `ea`, little-endian, `mem[ea+n-1] : ... : mem[ea]` (20_memory.md R53). -/
def memRead (m : Memory) (ea : Nat) : (n : Nat) → BitVec (8 * n)
  | 0 => 0#0
  | n + 1 => m.read (ea + n) ++ memRead m ea n |>.cast (by omega)

/-- `MemWrite(ea, n, v)`: `mem[ea+i] <- v[8i+7 : 8i]` for `i` in `0 .. n-1` (20_memory.md R54). -/
def memWrite (m : Memory) (ea : Nat) : (n : Nat) → Word → Memory
  | 0, _ => m
  | n + 1, v => (memWrite m ea n v).write (ea + n) (v.extractLsb' (8 * n) 8)

/-- The byte of data memory at an address, as the driver may inspect it (70_reset_and_hazards.md R304). -/
def State.byteAt (s : State) (a : Nat) : Byte := s.mem.read a

/-- The access of `n` bytes at `ea` is in range: natural-number comparisons, no wrap (20_memory.md R51). -/
def inRange (cfg : Config) (ea : Word) (n : Nat) : Bool :=
  decide (Config.memBase ≤ ea.toNat) && decide (ea.toNat + n ≤ Config.memBase + cfg.memSize)

/-- The access of `n` bytes at `ea` is refused for alignment (20_memory.md R56). -/
def misaligned (cfg : Config) (ea : Word) (n : Nat) : Bool :=
  cfg.alignCheck && ea.toNat % n != 0

/-! ## The effects of a step and their commit -/

/-- Who makes the step's one PC mutation (10_state.md R32): the select of the PC unit. -/
inductive PcSrc where
  /-- The driver's default advance. -/
  | driverDefault
  /-- The instruction installs its branch target. -/
  | instrTarget
  /-- The instruction itself advances by one (a not-taken CBNZ, 43_cbnz.md R221). -/
  | instrDefault
deriving DecidableEq, Repr

/-- A pending memory write `(addr, n, value)` (10_state.md R38, 20_memory.md R62). -/
structure MemStore where
  addr : Word
  n : Nat
  value : Word
deriving DecidableEq, Repr

/-- The effects of one instruction (10_state.md R38): `wreg`, `wflag`, `wmem`, and the PC select with the branch target
it may install. -/
structure Effects where
  wreg : Option (Reg × Word) := none
  wflag : FlagWrite := FlagWrite.none
  wmem : Option MemStore := none
  pcSrc : PcSrc := .driverDefault
  target : Word := 0#64
deriving DecidableEq, Repr

/-- The PC unit: `pc + 1` modulo 2^64, or the branch target (10_state.md R33, R34). -/
def nextPc (pc : Word) (src : PcSrc) (target : Word) : Word :=
  match src with
  | .driverDefault => pc + 1#64
  | .instrTarget => target
  | .instrDefault => pc + 1#64

/-- The register file after the commit. -/
def commitRegs (hardwired : Bool) (regs : Vector Word 32) : Option (Reg × Word) → Vector Word 32
  | none => regs
  | some (wa, wd) => writePort hardwired regs wa wd

/-- The data memory after the commit. -/
def commitMem (m : Memory) : Option MemStore → Memory
  | none => m
  | some w => memWrite m w.addr.toNat w.n w.value

/-- The atomic commit: "Every write of a step (register, flags, memory, PC) becomes visible together at the end of the
step" (10_state.md R39). -/
def commit (s : State) (e : Effects) : State :=
  { s with
    regs := commitRegs s.cfg.xzrHardwired s.regs e.wreg
    flags := s.flags.write e.wflag
    mem := commitMem s.mem e.wmem
    pc := nextPc s.pc e.pcSrc e.target }

/-! ## Fault entry -/

/-- The fault kinds of 60_exceptions.md R270. -/
inductive FaultKind where
  | unknownMnemonic
  | invalidOperandBundle
  | addressOutOfRange
  | addressMisaligned
deriving DecidableEq, Repr

/-- The code that the fault-status record stores (60_exceptions.md R270). -/
def FaultKind.code : FaultKind → BitVec 3
  | .unknownMnemonic => 1#3
  | .invalidOperandBundle => 2#3
  | .addressOutOfRange => 3#3
  | .addressMisaligned => 4#3

/-- Fault entry (60_exceptions.md R277): the record is written, `fpc <- pc`; no register, flag, memory byte or PC
changes; the block halts, since a state with `faulted = 1` has no step. -/
def raiseFault (k : FaultKind) (info : Word) (s : State) : State :=
  { s with fault := { faulted := true, code := k.code, fpc := s.pc, info := info } }

/-! ## The end of an instruction -/

/-- What an instruction's rule gives: its effects, or a fault with its info (10_state.md R38). -/
abbrev Attempt := Except (FaultKind × Word) Effects

/-- The end of a step: commit the effects, or commit the fault record only (10_state.md R38, R39). -/
def settle (s : State) (r : Attempt) : Host.Outcome State Fault Refusal :=
  match r with
  | .ok e => .next (commit s e)
  | .error (k, info) => .next (raiseFault k info s)

end Sys2Proof.Machine
end

