-- ==== Sys2Proof/Machine/Operands.lean ====
section
/-!
DEFINITION. Operand forms: the ALU's second operand is a register (spec/40_arithmetic.md R120) or a 64-bit immediate
(41_immediate.md R160); a data transfer has the one addressing mode base plus signed offset (44_data_transfer.md R230).
-/

namespace Sys2Proof.Machine

/-- Where the ALU's `b` input comes from (40_arithmetic.md R120). -/
inductive SecondOperand where
  | reg (rm : Reg)
  | imm (v : Word)
  /-- LSL and LSR read no second register (R137); the input is not used. -/
  | unused
deriving DecidableEq, Repr

/-- The value on the ALU's `b` input, read from the state at the start of the step. -/
def SecondOperand.value (s : State) : SecondOperand → Word
  | .reg rm => s.x rm
  | .imm v => v
  | .unused => 0#64

/-- `ea = (x[rn] + imm) mod 2^64` (44_data_transfer.md R230). -/
def effectiveAddress (s : State) (rn : Reg) (imm : Word) : Word := s.x rn + imm

end Sys2Proof.Machine
end

