-- ==== Sys2Proof/Machine/Alu.lean ====
section
/-!
DEFINITION. The ALU (spec/40_arithmetic.md R120, R121) and the step of an instruction that uses it.
-/

namespace Sys2Proof.Machine

/-- `alu_op` (R120). -/
inductive AluOp where
  | add
  | sub
  | and
  | or
  | xor
  | lsl
  | lsr
deriving DecidableEq, Repr

/-- The result `y` (R121); it never faults. -/
def aluResult (op : AluOp) (a b : Word) (sh : BitVec 6) : Word :=
  match op with
  | .add => a + b
  | .sub => a - b
  | .and => a &&& b
  | .or => a ||| b
  | .xor => a ^^^ b
  | .lsl => a <<< sh.toNat
  | .lsr => a >>> sh.toNat

/-- The effects of an ALU instruction: `x[rd] <- y` and the flags of its mode; no PC mutation of its own (R126, R137). -/
def aluEffects (op : AluOp) (mode : FlagMode) (rd rn : Reg) (b : SecondOperand) (sh : BitVec 6) (s : State) : Effects :=
  let y := aluResult op (s.x rn) (b.value s) sh
  { wreg := some (rd, y), wflag := flagGen s.cfg mode (s.x rn) (b.value s) y }

/-- The step of an ALU instruction: it always commits (R120, R275). -/
def aluStep (op : AluOp) (mode : FlagMode) (rd rn : Reg) (b : SecondOperand) (sh : BitVec 6) (s : State) :
    Host.Outcome State Fault Refusal :=
  settle s (.ok (aluEffects op mode rd rn b sh s))

end Sys2Proof.Machine
end

