-- ==== Sys2Proof/Machine/Arithmetic.lean ====
section
/-!
DEFINITION. The ten arithmetic-format instructions (spec/40_arithmetic.md R127 to R137).
-/

namespace Sys2Proof.Machine

/-- R127. ADD: `x[rd] <- (x[rn] + x[rm]) mod 2^64`; no flag is written. -/
def execAdd (rd rn rm : Reg) (s : State) : Host.Outcome State Fault Refusal :=
  aluStep .add .none rd rn (.reg rm) 0#6 s

/-- R128. ADDS: as ADD, and N, Z, C, V are written from the old operands (flag_mode ADD_CV). -/
def execAdds (rd rn rm : Reg) (s : State) : Host.Outcome State Fault Refusal :=
  aluStep .add .addCV rd rn (.reg rm) 0#6 s

/-- R129. SUB: `x[rd] <- (x[rn] - x[rm]) mod 2^64`; no flag is written. -/
def execSub (rd rn rm : Reg) (s : State) : Host.Outcome State Fault Refusal :=
  aluStep .sub .none rd rn (.reg rm) 0#6 s

/-- R130. SUBS: as SUB, and N, Z, C, V are written (flag_mode SUB_CV): C is carry(a, neg64(b)), V is vsub. -/
def execSubs (rd rn rm : Reg) (s : State) : Host.Outcome State Fault Refusal :=
  aluStep .sub .subCV rd rn (.reg rm) 0#6 s

/-- R131. AND: `x[rd] <- x[rn] AND x[rm]`; no flag is written. -/
def execAnd (rd rn rm : Reg) (s : State) : Host.Outcome State Fault Refusal :=
  aluStep .and .none rd rn (.reg rm) 0#6 s

/-- R132. ANDS: `x[rd] <- x[rn] AND x[rm]`; despite its S suffix it writes no flag. -/
def execAnds (rd rn rm : Reg) (s : State) : Host.Outcome State Fault Refusal :=
  aluStep .and .none rd rn (.reg rm) 0#6 s

/-- R133. ORR: `x[rd] <- x[rn] OR x[rm]`; no flag is written. -/
def execOrr (rd rn rm : Reg) (s : State) : Host.Outcome State Fault Refusal :=
  aluStep .or .none rd rn (.reg rm) 0#6 s

/-- R134. EOR: `x[rd] <- x[rn] XOR x[rm]`; no flag is written. -/
def execEor (rd rn rm : Reg) (s : State) : Host.Outcome State Fault Refusal :=
  aluStep .xor .none rd rn (.reg rm) 0#6 s

/-- R135. LSL: `x[rd] <- (x[rn] << sh) mod 2^64`, 0 to 63; no flag is written, Rm is not read. -/
def execLsl (rd rn : Reg) (sh : BitVec 6) (s : State) : Host.Outcome State Fault Refusal :=
  aluStep .lsl .none rd rn .unused sh s

/-- R136. LSR: `x[rd] <- x[rn] >>u sh`, zeros fill from bit 63; no flag is written, Rm is not read. -/
def execLsr (rd rn : Reg) (sh : BitVec 6) (s : State) : Host.Outcome State Fault Refusal :=
  aluStep .lsr .none rd rn .unused sh s

end Sys2Proof.Machine
end

