-- ==== Sys2Proof/Machine/Branch.lean ====
section
/-!
DEFINITION. The unconditional branch and the ten conditional branches (spec/42_branch.md R190 to R203).
-/

namespace Sys2Proof.Machine

/-- The effects of a conditional branch (R203): `pc <- target` by the instruction if the condition holds, otherwise no
PC mutation by the instruction, and the driver advances. -/
def condBranchEffects (c : Cond) (target : Word) (s : State) : Effects :=
  if c.holds s.flags then { pcSrc := .instrTarget, target := target } else { pcSrc := .driverDefault }

/-- The step of a conditional branch: it always commits (R275). -/
def condBranchStep (c : Cond) (target : Word) (s : State) : Host.Outcome State Fault Refusal :=
  settle s (.ok (condBranchEffects c target s))

/-- R192. B: `pc <- target`. -/
def execB (target : Word) (s : State) : Host.Outcome State Fault Refusal :=
  settle s (.ok { pcSrc := .instrTarget, target := target })

/-- R193. B.EQ: taken if and only if `Z = 1`. -/
def execBEq (target : Word) (s : State) : Host.Outcome State Fault Refusal :=
  condBranchStep .eq target s

/-- R194. B.NE: taken if and only if `Z = 0`. -/
def execBNe (target : Word) (s : State) : Host.Outcome State Fault Refusal :=
  condBranchStep .ne target s

/-- R195. B.LT: taken if and only if `N != V`. -/
def execBLt (target : Word) (s : State) : Host.Outcome State Fault Refusal :=
  condBranchStep .lt target s

/-- R196. B.LE: taken if and only if `NOT (Z = 0 AND N = V)`. -/
def execBLe (target : Word) (s : State) : Host.Outcome State Fault Refusal :=
  condBranchStep .le target s

/-- R197. B.GT: taken if and only if `Z = 0 AND N = V`. -/
def execBGt (target : Word) (s : State) : Host.Outcome State Fault Refusal :=
  condBranchStep .gt target s

/-- R198. B.GE: taken if and only if `N = V`. -/
def execBGe (target : Word) (s : State) : Host.Outcome State Fault Refusal :=
  condBranchStep .ge target s

/-- R199. B.MI: taken if and only if `N = 1`. -/
def execBMi (target : Word) (s : State) : Host.Outcome State Fault Refusal :=
  condBranchStep .mi target s

/-- R200. B.PL: taken if and only if `N = 0`. -/
def execBPl (target : Word) (s : State) : Host.Outcome State Fault Refusal :=
  condBranchStep .pl target s

/-- R201. B.VS: taken if and only if `V = 1`. -/
def execBVs (target : Word) (s : State) : Host.Outcome State Fault Refusal :=
  condBranchStep .vs target s

/-- R202. B.VC: taken if and only if `V = 0`. -/
def execBVc (target : Word) (s : State) : Host.Outcome State Fault Refusal :=
  condBranchStep .vc target s

end Sys2Proof.Machine
end

