-- ==== Sys2Proof/Machine/CompareBranch.lean ====
section
/-!
DEFINITION. CBNZ, the conditional branch on register (spec/43_cbnz.md R220, R221).
-/

namespace Sys2Proof.Machine

/-- The effects of CBNZ: the instruction itself makes the one PC mutation in both cases (R221). -/
def cbnzEffects (rt : Reg) (target : Word) (s : State) : Effects :=
  if s.x rt != 0#64 then { pcSrc := .instrTarget, target := target } else { pcSrc := .instrDefault }

/-- R220. CBNZ: `pc <- target` if `x[rt] != 0`, otherwise `pc <- pc + 1` by the instruction itself. -/
def execCbnz (rt : Reg) (target : Word) (s : State) : Host.Outcome State Fault Refusal :=
  settle s (.ok (cbnzEffects rt target s))

end Sys2Proof.Machine
end

