-- ==== Sys2Proof/Machine/Lsu.lean ====
section
/-!
DEFINITION. The load-store unit (spec/20_memory.md R60 to R62) and the step of a data transfer (44_data_transfer.md
R231).
-/

namespace Sys2Proof.Machine

/-- `ls_size` (R60). -/
inductive LsSize where
  | byte
  | half
  | word
  | double
deriving DecidableEq, Repr

/-- `n <- 2^ls_size`: the width of the access in bytes (R62). -/
def LsSize.bytes : LsSize → Nat
  | .byte => 1
  | .half => 2
  | .word => 4
  | .double => 8

/-- The check of `ls_err`: range first, then alignment; `none` is `ls_err = 00` (R62, 60_exceptions.md R276). -/
def lsCheck (cfg : Config) (addr : Word) (size : LsSize) : Option FaultKind :=
  if inRange cfg addr size.bytes = false then some .addressOutOfRange
  else if misaligned cfg addr size.bytes then some .addressMisaligned
  else none

/-- `ls_rdata`: the loaded value, extended to 64 bits (R62). -/
def lsLoad (m : Memory) (addr : Word) (size : LsSize) (sext : Bool) : Word :=
  let raw := memRead m addr.toNat size.bytes
  if sext then raw.signExtend 64 else raw.setWidth 64

/-- The pending write of a store, `trunc_{8n}(ls_wdata)` (R62). -/
def lsStore (addr : Word) (size : LsSize) (wdata : Word) : MemStore :=
  { addr := addr, n := size.bytes, value := (wdata.setWidth (8 * size.bytes)).setWidth 64 }

/-- What a load at `ea` gives (44_data_transfer.md R231): the fault of a failed check, with `info = ea`, or `x[rt]` taking
the extended value. With `rt` = XZR the access is still made and can still fault (R232, D29). -/
def loadAttempt (size : LsSize) (sext : Bool) (rt : Reg) (ea : Word) (s : State) : Attempt :=
  match lsCheck s.cfg ea size with
  | some k => .error (k, ea)
  | none => .ok { wreg := some (rt, lsLoad s.mem ea size sext) }

/-- What a store at `ea` gives (44_data_transfer.md R231): the fault of a failed check, with `info = ea`, or the low bytes
of `x[rt]` written. -/
def storeAttempt (size : LsSize) (rt : Reg) (ea : Word) (s : State) : Attempt :=
  match lsCheck s.cfg ea size with
  | some k => .error (k, ea)
  | none => .ok { wmem := some (lsStore ea size (s.x rt)) }

/-- The step of a load; the base register is not modified (44_data_transfer.md R241). -/
def loadStep (size : LsSize) (sext : Bool) (rt rn : Reg) (imm : Word) (s : State) : Host.Outcome State Fault Refusal :=
  settle s (loadAttempt size sext rt (effectiveAddress s rn imm) s)

/-- The step of a store; the base register is not modified (44_data_transfer.md R241). -/
def storeStep (size : LsSize) (rt rn : Reg) (imm : Word) (s : State) : Host.Outcome State Fault Refusal :=
  settle s (storeAttempt size rt (effectiveAddress s rn imm) s)

end Sys2Proof.Machine
end

