-- ==== Sys2Proof/Machine/DataTransfer.lean ====
section
/-!
DEFINITION. The eight data transfers (spec/44_data_transfer.md R230 to R242), with the LSU controls of 20_memory.md R61.
-/

namespace Sys2Proof.Machine

/-- R232. LDUR: `x[rt] <- MemRead(ea, 8)`. -/
def execLdur (rt rn : Reg) (imm : Word) (s : State) : Host.Outcome State Fault Refusal :=
  loadStep .double false rt rn imm s

/-- R233. STUR: `MemWrite(ea, 8, x[rt])`. -/
def execStur (rt rn : Reg) (imm : Word) (s : State) : Host.Outcome State Fault Refusal :=
  storeStep .double rt rn imm s

/-- R234. LDURB: `x[rt] <- zext_64(MemRead(ea, 1))`. -/
def execLdurb (rt rn : Reg) (imm : Word) (s : State) : Host.Outcome State Fault Refusal :=
  loadStep .byte false rt rn imm s

/-- R235. STURB: `MemWrite(ea, 1, x[rt][7:0])`. -/
def execSturb (rt rn : Reg) (imm : Word) (s : State) : Host.Outcome State Fault Refusal :=
  storeStep .byte rt rn imm s

/-- R236. LDURH: `x[rt] <- zext_64(MemRead(ea, 2))`. -/
def execLdurh (rt rn : Reg) (imm : Word) (s : State) : Host.Outcome State Fault Refusal :=
  loadStep .half false rt rn imm s

/-- R237. STURH: `MemWrite(ea, 2, x[rt][15:0])`. -/
def execSturh (rt rn : Reg) (imm : Word) (s : State) : Host.Outcome State Fault Refusal :=
  storeStep .half rt rn imm s

/-- R238. LDURSW: `x[rt] <- sext_64(MemRead(ea, 4))`. -/
def execLdursw (rt rn : Reg) (imm : Word) (s : State) : Host.Outcome State Fault Refusal :=
  loadStep .word true rt rn imm s

/-- R239. STURW: `MemWrite(ea, 4, x[rt][31:0])`. -/
def execSturw (rt rn : Reg) (imm : Word) (s : State) : Host.Outcome State Fault Refusal :=
  storeStep .word rt rn imm s

end Sys2Proof.Machine
end

