-- ==== Sys2Proof/Machine/Immediate.lean ====
section
/-!
DEFINITION. The eight immediate-format instructions (spec/41_immediate.md R160 to R169).
-/

namespace Sys2Proof.Machine

/-- R161. ADDI: `x[rd] <- (x[rn] + imm) mod 2^64`; no flag is written. -/
def execAddi (rd rn : Reg) (imm : Word) (s : State) : Host.Outcome State Fault Refusal :=
  aluStep .add .none rd rn (.imm imm) 0#6 s

/-- R162. ADDIS: as ADDI, and N, Z, V are written; C follows `ADDIS_C_POLICY` (flag_mode ADD_V). -/
def execAddis (rd rn : Reg) (imm : Word) (s : State) : Host.Outcome State Fault Refusal :=
  aluStep .add .addV rd rn (.imm imm) 0#6 s

/-- R163. SUBI: `x[rd] <- (x[rn] - imm) mod 2^64`; no flag is written. -/
def execSubi (rd rn : Reg) (imm : Word) (s : State) : Host.Outcome State Fault Refusal :=
  aluStep .sub .none rd rn (.imm imm) 0#6 s

/-- R164. SUBIS: as SUBI, and N, Z, C, V are written (flag_mode SUB_CV). -/
def execSubis (rd rn : Reg) (imm : Word) (s : State) : Host.Outcome State Fault Refusal :=
  aluStep .sub .subCV rd rn (.imm imm) 0#6 s

/-- R165. ANDI: `x[rd] <- x[rn] AND imm`; no flag is written. -/
def execAndi (rd rn : Reg) (imm : Word) (s : State) : Host.Outcome State Fault Refusal :=
  aluStep .and .none rd rn (.imm imm) 0#6 s

/-- R166. ANDIS: `x[rd] <- x[rn] AND imm`; despite its S suffix it writes no flag. -/
def execAndis (rd rn : Reg) (imm : Word) (s : State) : Host.Outcome State Fault Refusal :=
  aluStep .and .none rd rn (.imm imm) 0#6 s

/-- R167. ORRI: `x[rd] <- x[rn] OR imm`; no flag is written. -/
def execOrri (rd rn : Reg) (imm : Word) (s : State) : Host.Outcome State Fault Refusal :=
  aluStep .or .none rd rn (.imm imm) 0#6 s

/-- R168. EORI: `x[rd] <- x[rn] XOR imm`; no flag is written. -/
def execEori (rd rn : Reg) (imm : Word) (s : State) : Host.Outcome State Fault Refusal :=
  aluStep .xor .none rd rn (.imm imm) 0#6 s

end Sys2Proof.Machine
end

