-- ==== Sys2Proof/Machine/Dispatch.lean ====
section
/-!
DEFINITION. The dispatch: one arm per instruction of the catalog (spec/00_scope.md R3), each one call of its meaning.
-/

namespace Sys2Proof.Machine

/-- One instruction executed at a state (spec/10_state.md R38, after decoding). -/
def exec (i : Instr) (s : State) : Host.Outcome State Fault Refusal :=
  match i with
  | .add rd rn rm => Sys2Proof.Machine.execAdd rd rn rm s
  | .adds rd rn rm => Sys2Proof.Machine.execAdds rd rn rm s
  | .sub rd rn rm => Sys2Proof.Machine.execSub rd rn rm s
  | .subs rd rn rm => Sys2Proof.Machine.execSubs rd rn rm s
  | .and rd rn rm => Sys2Proof.Machine.execAnd rd rn rm s
  | .ands rd rn rm => Sys2Proof.Machine.execAnds rd rn rm s
  | .orr rd rn rm => Sys2Proof.Machine.execOrr rd rn rm s
  | .eor rd rn rm => Sys2Proof.Machine.execEor rd rn rm s
  | .lsl rd rn sh => Sys2Proof.Machine.execLsl rd rn sh s
  | .lsr rd rn sh => Sys2Proof.Machine.execLsr rd rn sh s
  | .addi rd rn imm => Sys2Proof.Machine.execAddi rd rn imm s
  | .addis rd rn imm => Sys2Proof.Machine.execAddis rd rn imm s
  | .subi rd rn imm => Sys2Proof.Machine.execSubi rd rn imm s
  | .subis rd rn imm => Sys2Proof.Machine.execSubis rd rn imm s
  | .andi rd rn imm => Sys2Proof.Machine.execAndi rd rn imm s
  | .andis rd rn imm => Sys2Proof.Machine.execAndis rd rn imm s
  | .orri rd rn imm => Sys2Proof.Machine.execOrri rd rn imm s
  | .eori rd rn imm => Sys2Proof.Machine.execEori rd rn imm s
  | .b target => Sys2Proof.Machine.execB target s
  | .bEq target => Sys2Proof.Machine.execBEq target s
  | .bNe target => Sys2Proof.Machine.execBNe target s
  | .bLt target => Sys2Proof.Machine.execBLt target s
  | .bLe target => Sys2Proof.Machine.execBLe target s
  | .bGt target => Sys2Proof.Machine.execBGt target s
  | .bGe target => Sys2Proof.Machine.execBGe target s
  | .bMi target => Sys2Proof.Machine.execBMi target s
  | .bPl target => Sys2Proof.Machine.execBPl target s
  | .bVs target => Sys2Proof.Machine.execBVs target s
  | .bVc target => Sys2Proof.Machine.execBVc target s
  | .cbnz rt target => Sys2Proof.Machine.execCbnz rt target s
  | .ldur rt rn imm => Sys2Proof.Machine.execLdur rt rn imm s
  | .stur rt rn imm => Sys2Proof.Machine.execStur rt rn imm s
  | .ldurb rt rn imm => Sys2Proof.Machine.execLdurb rt rn imm s
  | .sturb rt rn imm => Sys2Proof.Machine.execSturb rt rn imm s
  | .ldurh rt rn imm => Sys2Proof.Machine.execLdurh rt rn imm s
  | .sturh rt rn imm => Sys2Proof.Machine.execSturh rt rn imm s
  | .ldursw rt rn imm => Sys2Proof.Machine.execLdursw rt rn imm s
  | .sturw rt rn imm => Sys2Proof.Machine.execSturw rt rn imm s

end Sys2Proof.Machine
end

