-- ==== Sys2Proof/Machine/Fetch.lean ====
section
/-!
DEFINITION. Fetch from the program store (spec/10_state.md R37), decode with the decode faults of 60_exceptions.md R271
and R272, and the placing of one word where the next step fetches (log 6).
-/

namespace Sys2Proof.Machine

/-- `PROGRAM[pc]`, none at `pc >= len(PROGRAM)` (10_state.md R37, R38). -/
def fetch (s : State) : Option Slot := s.program[s.pc.toNat]?

/-- The kind and the info of a decode fault (60_exceptions.md R270). -/
def decodeFaultEntry : DecodeFault → FaultKind × Word
  | .unknownMnemonic info => (.unknownMnemonic, info)
  | .invalidOperandBundle => (.invalidOperandBundle, 0#64)

/-- The execution of one fetched slot: decode at the state's PC, then the fault of the decode or the instruction
(10_state.md R38). -/
def runSlot (slot : Slot) (s : State) : Host.Outcome State Fault Refusal :=
  match decodeSlot s.pc slot with
  | .error d => settle s (.error (decodeFaultEntry d))
  | .ok i => exec i s

/-- The program with `w` in the slot `pc`: the slots below and above stay, missing slots below hold the illegal word 0. -/
def placeWord (program : List Slot) (pc : Nat) (w : Code) : List Slot :=
  program.take pc ++ List.replicate (pc - program.length) (Slot.word 0#32) ++ Slot.word w :: program.drop (pc + 1)

end Sys2Proof.Machine
end

