-- ==== Sys2Proof/Machine/Step.lean ====
section
/-!
DEFINITION. One step of the block (spec/10_state.md R38), and the state that runs a given word next (log 6).
-/

namespace Sys2Proof.Machine

/-- One step (10_state.md R38). A state halted by a fault and a state whose fetch finds no instruction have no step
(70_reset_and_hazards.md R303); a fault raised during the step is a next state with the fault record written (R277). -/
def step (s : State) : Host.Outcome State Fault Refusal :=
  if s.fault.faulted then .fault .haltedByFault
  else
    match fetch s with
    | none => .fault .endOfProgram
    | some slot => runSlot slot s

/-- `s` with the table word `w` of `nbits` bits in the program slot at its PC; a fault record that would keep the state
from stepping is cleared (log 6). -/
def State.withFetchWord (s : State) (nbits w : Nat) : State :=
  { s with
    program := placeWord s.program s.pc.toNat (BitVec.ofNat 32 (w % 2 ^ nbits))
    fault := if s.fault.faulted then FaultStatus.clear else s.fault }

end Sys2Proof.Machine
end

