-- ==== Sys2Proof/Machine/Driver.lean ====
section
/-!
DEFINITION. What the execution driver may do (spec/70_reset_and_hazards.md R300 to R304): load and launch, reset, step,
pause, inspect. It has no other move: it writes no register, flag, PC or memory byte between steps.
-/

namespace Sys2Proof.Machine

/-- The OPEN reset values `INIT_REGS`, `INIT_FLAGS`, `INIT_MEM` (10_state.md R40): any values. That each reset has its own,
also a later reset within one launch, is the model's choice (log 19). -/
structure InitValues where
  regs : Vector Word 32
  flags : Flags
  mem : Memory
deriving DecidableEq, Repr

/-- Reset (70_reset_and_hazards.md R300, 10_state.md R40): registers, flags and memory take the `INIT` values, `pc`
takes `ENTRY_PC`, the fault record is cleared; `PROGRAM` and the parameters are unchanged. Register 31's stored word is
0 when it is hardwired (log 13). The values belong to this one reset (log 19). -/
def applyReset (init : InitValues) (s : State) : State :=
  { s with
    regs := if s.cfg.xzrHardwired then init.regs.set 31 0#64 else init.regs
    flags := init.flags
    pc := Config.entryPc
    mem := init.mem
    fault := FaultStatus.clear }

/-- What the driver does between or as steps (70_reset_and_hazards.md R304). A launch and every reset after it each bring
their own `INIT` values: the spec does not say whether a later reset within one launch takes those of the launch's reset
again, and the model lets it take any, the same ones among them (DESIGN CHOICE, log 19). -/
inductive DriverMove where
  /-- Load `PROGRAM` and choose the parameters, then reset: "load before reset". -/
  | launch (cfg : Config) (program : List Slot) (init : InitValues)
  /-- Assert reset between steps, with `INIT` values of its own (log 19). -/
  | reset (init : InitValues)
  /-- Request one step. -/
  | step
  /-- Stop between completed steps: the state stays as the last step left it. -/
  | pause
deriving DecidableEq, Repr

/-- The block's answer to a move (70_reset_and_hazards.md R304). A requested step of a state that has none is answered
by a stop. -/
def drive (m : DriverMove) (s : State) : Host.Outcome State Fault Refusal :=
  match m with
  | .launch cfg program init => .next (applyReset init { s with cfg := cfg, program := program })
  | .reset init => .next (applyReset init s)
  | .step => step s
  | .pause => .next s

/-- What the driver may read between steps (70_reset_and_hazards.md R304): a register, the flags, the PC, a memory byte
and the fault record. -/
structure Inspection where
  x : Word
  flags : Flags
  pc : Word
  byte : Byte
  fault : FaultStatus
deriving DecidableEq, Repr

/-- The driver's view of register `r` and memory address `a`. -/
def inspect (s : State) (r : Reg) (a : Nat) : Inspection :=
  { x := s.x r, flags := s.flags, pc := s.pc, byte := s.byteAt a, fault := s.fault }

end Sys2Proof.Machine
end

