-- ==== Sys2Proof/Safety.lean ====
section
/-!
DEFINITION. The condition of a run (spec/70_reset_and_hazards.md R303), the invariant of the machine, the states a launch
can reach, and the terms the statements use: what an instruction may write, read and address.
-/

namespace Sys2Proof.Machine

/-- "It is in exactly one of three conditions" (70_reset_and_hazards.md R303). -/
inductive RunCondition where
  | ableToStep
  | endedNormally
  | haltedByFault
deriving DecidableEq, Repr

/-- The condition a state is in (70_reset_and_hazards.md R303). -/
def State.condition (s : State) : RunCondition :=
  if s.fault.faulted then .haltedByFault
  else if s.pc.toNat < s.program.length then .ableToStep
  else .endedNormally

/-- Every listed byte lies in the modelled range (20_memory.md R51: the store never grows silently). -/
abbrev memInRange (cfg : Config) (m : Memory) : Prop :=
  ∀ p ∈ m, Config.memBase ≤ p.1 ∧ p.1 < Config.memBase + cfg.memSize

/-- The stored word of a hardwired register 31 is 0 (log 13). -/
abbrev xzrCanonical (cfg : Config) (regs : Vector Word 32) : Prop :=
  cfg.xzrHardwired = true → regs[31] = 0#64

/-- The fault-status record as rules R35, R270 and R277 leave it: all zero before a fault; after one a code 1 to 4, the
faulting PC, which is still the PC, info 0 for code 2, and code 4 only where alignment is checked (R274). -/
abbrev faultConsistent (s : State) : Prop :=
  if s.fault.faulted then
    1 ≤ s.fault.code.toNat ∧ s.fault.code.toNat ≤ 4 ∧ s.fault.fpc = s.pc ∧ s.pc.toNat < s.program.length ∧
    (s.fault.code = 2#3 → s.fault.info = 0#64) ∧ (s.fault.code = 4#3 → s.cfg.alignCheck = true)
  else s.fault = FaultStatus.clear

/-- The invariant of the machine: parameters within their bounds, memory in its canonical form (the model's choice, log 5)
and in range, a hardwired register 31 stored as 0 (the model's choice, log 13), and a consistent fault record. -/
abbrev State.Inv (s : State) : Prop :=
  s.cfg.wf ∧ s.mem.wf ∧ memInRange s.cfg s.mem ∧ xzrCanonical s.cfg s.regs ∧ faultConsistent s

/-- A launch the spec allows: parameters within bounds and an initial memory in range, given in the model's canonical form
(log 5). -/
abbrev launchOk (cfg : Config) (init : InitValues) : Prop :=
  cfg.wf ∧ init.mem.wf ∧ memInRange cfg init.mem

/-- The states the driver can bring the block to: a launch, a reset with allowed values, and steps (R304). The values of a
later reset need not be those of the launch's (log 19). -/
inductive Reachable : State → Prop where
  | launch (s : State) (cfg : Config) (program : List Slot) (init : InitValues) (h : launchOk cfg init) :
      Reachable (applyReset init { s with cfg := cfg, program := program })
  | reset (s : State) (init : InitValues) (hs : Reachable s) (h : launchOk s.cfg init) : Reachable (applyReset init s)
  | step (s t : State) (hs : Reachable s) (h : Sys2Proof.Machine.step s = .next t) : Reachable t

/-! ## What two states share -/

/-- `rd` takes `v` and every other register keeps its value; a hardwired register 31 takes nothing (10_state.md R22). -/
abbrev registerBecomes (s t : State) (rd : Reg) (v : Word) : Prop :=
  ∀ r : Reg, t.x r = if r = rd ∧ ¬(s.cfg.xzrHardwired = true ∧ rd = 31#5) then v else s.x r

/-- Every register reads as before. -/
abbrev registersKept (s t : State) : Prop := ∀ r : Reg, t.x r = s.x r

/-- Every byte of data memory reads as before. -/
abbrev memoryKept (s t : State) : Prop := ∀ a : Nat, t.byteAt a = s.byteAt a

/-- The program store, the parameters and the fault-status record are as before. -/
abbrev recordsKept (s t : State) : Prop := t.program = s.program ∧ t.cfg = s.cfg ∧ t.fault = s.fault

/-- `t` is `s` after an instruction that writes `v` to `rd`, leaves the flags `f` and the memory, and advances the PC. -/
abbrev registerResult (s t : State) (rd : Reg) (v : Word) (f : Flags) : Prop :=
  registerBecomes s t rd v ∧ t.flags = f ∧ t.pc = s.pc + 1#64 ∧ memoryKept s t ∧ recordsKept s t

/-- `t` is `s` after a store of the low `n` bytes of `v` at `ea`: those bytes hold `v`, every other byte reads as before,
no register and no flag changes, and the PC advances (20_memory.md R54). -/
abbrev storeResult (s t : State) (ea : Word) (n : Nat) (v : Word) : Prop :=
  registersKept s t ∧ t.flags = s.flags ∧ t.pc = s.pc + 1#64 ∧ recordsKept s t ∧
  (∀ a : Nat, a < ea.toNat ∨ ea.toNat + n ≤ a → t.byteAt a = s.byteAt a) ∧
  (∀ i : Nat, i < n → t.byteAt (ea.toNat + i) = v.extractLsb' (8 * i) 8)

/-- The access of `n` bytes at `ea` passes the checks: all its bytes in range, without wrap, and aligned where alignment
is enforced (20_memory.md R51, R56). -/
abbrev accessAllowed (s : State) (ea : Word) (n : Nat) : Prop :=
  ea.toNat + n ≤ s.cfg.memSize ∧ (s.cfg.alignCheck = true → ea.toNat % n = 0)

/-- The `n` bytes from `a` as one unsigned number, least significant byte at the lowest address (20_memory.md R53). -/
def littleEndian (s : State) (a : Nat) : Nat → Nat
  | 0 => 0
  | n + 1 => (s.byteAt a).toNat + 256 * littleEndian s (a + 1) n

/-- `s` with another value of the C flag. -/
def State.withC (s : State) (c : Bool) : State := { s with flags := { s.flags with c := c } }

/-- `s` with another stored word in register 31. -/
def State.withStored31 (s : State) (v : Word) : State := { s with regs := s.regs.set 31 v }

/-! ## What an instruction writes, addresses and branches to -/

/-- The register an instruction writes (10_state.md R24). -/
def destination : Instr → Option Reg
  | .add rd _ _ => some rd
  | .adds rd _ _ => some rd
  | .sub rd _ _ => some rd
  | .subs rd _ _ => some rd
  | .and rd _ _ => some rd
  | .ands rd _ _ => some rd
  | .orr rd _ _ => some rd
  | .eor rd _ _ => some rd
  | .lsl rd _ _ => some rd
  | .lsr rd _ _ => some rd
  | .addi rd _ _ => some rd
  | .addis rd _ _ => some rd
  | .subi rd _ _ => some rd
  | .subis rd _ _ => some rd
  | .andi rd _ _ => some rd
  | .andis rd _ _ => some rd
  | .orri rd _ _ => some rd
  | .eori rd _ _ => some rd
  | .b _ => none
  | .bEq _ => none
  | .bNe _ => none
  | .bLt _ => none
  | .bLe _ => none
  | .bGt _ => none
  | .bGe _ => none
  | .bMi _ => none
  | .bPl _ => none
  | .bVs _ => none
  | .bVc _ => none
  | .cbnz _ _ => none
  | .ldur rt _ _ => some rt
  | .stur _ _ _ => none
  | .ldurb rt _ _ => some rt
  | .sturb _ _ _ => none
  | .ldurh rt _ _ => some rt
  | .sturh _ _ _ => none
  | .ldursw rt _ _ => some rt
  | .sturw _ _ _ => none

/-- The data access of an instruction: base register, offset and width in bytes (20_memory.md R57, 44_data_transfer.md
R230). -/
def dataAccess : Instr → Option (Reg × Word × Nat)
  | .ldur _ rn imm => some (rn, imm, 8)
  | .stur _ rn imm => some (rn, imm, 8)
  | .ldurb _ rn imm => some (rn, imm, 1)
  | .sturb _ rn imm => some (rn, imm, 1)
  | .ldurh _ rn imm => some (rn, imm, 2)
  | .sturh _ rn imm => some (rn, imm, 2)
  | .ldursw _ rn imm => some (rn, imm, 4)
  | .sturw _ rn imm => some (rn, imm, 4)
  | .add _ _ _ => none
  | .adds _ _ _ => none
  | .sub _ _ _ => none
  | .subs _ _ _ => none
  | .and _ _ _ => none
  | .ands _ _ _ => none
  | .orr _ _ _ => none
  | .eor _ _ _ => none
  | .lsl _ _ _ => none
  | .lsr _ _ _ => none
  | .addi _ _ _ => none
  | .addis _ _ _ => none
  | .subi _ _ _ => none
  | .subis _ _ _ => none
  | .andi _ _ _ => none
  | .andis _ _ _ => none
  | .orri _ _ _ => none
  | .eori _ _ _ => none
  | .b _ => none
  | .bEq _ => none
  | .bNe _ => none
  | .bLt _ => none
  | .bLe _ => none
  | .bGt _ => none
  | .bGe _ => none
  | .bMi _ => none
  | .bPl _ => none
  | .bVs _ => none
  | .bVc _ => none
  | .cbnz _ _ => none

/-- The bytes an instruction stores to: address and width, for the four stores (44_data_transfer.md R233 to R239). -/
def storedBytes (s : State) (i : Instr) : Option (Word × Nat) :=
  match i with
  | .stur _ rn imm => some (effectiveAddress s rn imm, 8)
  | .sturb _ rn imm => some (effectiveAddress s rn imm, 1)
  | .sturh _ rn imm => some (effectiveAddress s rn imm, 2)
  | .sturw _ rn imm => some (effectiveAddress s rn imm, 4)
  | _ => none

/-- Where an instruction branches to from `s`, if it does: B, a B.cond whose condition holds, a CBNZ whose Rt is non-zero
(10_state.md R33, 42_branch.md R191). -/
def branchesTo (s : State) (i : Instr) : Option Word :=
  match i with
  | .b target => some target
  | .bEq target => if s.flags.z = true then some target else none
  | .bNe target => if s.flags.z = false then some target else none
  | .bLt target => if s.flags.n ≠ s.flags.v then some target else none
  | .bLe target => if ¬(s.flags.z = false ∧ s.flags.n = s.flags.v) then some target else none
  | .bGt target => if s.flags.z = false ∧ s.flags.n = s.flags.v then some target else none
  | .bGe target => if s.flags.n = s.flags.v then some target else none
  | .bMi target => if s.flags.n = true then some target else none
  | .bPl target => if s.flags.n = false then some target else none
  | .bVs target => if s.flags.v = true then some target else none
  | .bVc target => if s.flags.v = false then some target else none
  | .cbnz rt target => if s.x rt ≠ 0#64 then some target else none
  | _ => none

/-- The bundle carries exactly the fields that the instruction's format requires, in range, with these values; `imm`
enters as `imm mod 2^64` (30_encoding.md R81). What the other fields hold does not matter (R80). -/
def carries (b : Bundle) (i : Instr) : Prop :=
  match i with
  | .add rd rn rm => b.rd = some rd ∧ b.rn = some rn ∧ b.rm = some rm
  | .adds rd rn rm => b.rd = some rd ∧ b.rn = some rn ∧ b.rm = some rm
  | .sub rd rn rm => b.rd = some rd ∧ b.rn = some rn ∧ b.rm = some rm
  | .subs rd rn rm => b.rd = some rd ∧ b.rn = some rn ∧ b.rm = some rm
  | .and rd rn rm => b.rd = some rd ∧ b.rn = some rn ∧ b.rm = some rm
  | .ands rd rn rm => b.rd = some rd ∧ b.rn = some rn ∧ b.rm = some rm
  | .orr rd rn rm => b.rd = some rd ∧ b.rn = some rn ∧ b.rm = some rm
  | .eor rd rn rm => b.rd = some rd ∧ b.rn = some rn ∧ b.rm = some rm
  | .lsl rd rn sh => b.rd = some rd ∧ b.rn = some rn ∧ b.imm = some (sh.toNat : Int)
  | .lsr rd rn sh => b.rd = some rd ∧ b.rn = some rn ∧ b.imm = some (sh.toNat : Int)
  | .addi rd rn imm => b.rd = some rd ∧ b.rn = some rn ∧ b.imm = some imm.toInt
  | .addis rd rn imm => b.rd = some rd ∧ b.rn = some rn ∧ b.imm = some imm.toInt
  | .subi rd rn imm => b.rd = some rd ∧ b.rn = some rn ∧ b.imm = some imm.toInt
  | .subis rd rn imm => b.rd = some rd ∧ b.rn = some rn ∧ b.imm = some imm.toInt
  | .andi rd rn imm => b.rd = some rd ∧ b.rn = some rn ∧ b.imm = some imm.toInt
  | .andis rd rn imm => b.rd = some rd ∧ b.rn = some rn ∧ b.imm = some imm.toInt
  | .orri rd rn imm => b.rd = some rd ∧ b.rn = some rn ∧ b.imm = some imm.toInt
  | .eori rd rn imm => b.rd = some rd ∧ b.rn = some rn ∧ b.imm = some imm.toInt
  | .b target => b.target = some target
  | .bEq target => b.target = some target
  | .bNe target => b.target = some target
  | .bLt target => b.target = some target
  | .bLe target => b.target = some target
  | .bGt target => b.target = some target
  | .bGe target => b.target = some target
  | .bMi target => b.target = some target
  | .bPl target => b.target = some target
  | .bVs target => b.target = some target
  | .bVc target => b.target = some target
  | .cbnz rt target => b.rt = some rt ∧ b.target = some target
  | .ldur rt rn imm => b.rt = some rt ∧ b.rn = some rn ∧ b.imm = some imm.toInt
  | .stur rt rn imm => b.rt = some rt ∧ b.rn = some rn ∧ b.imm = some imm.toInt
  | .ldurb rt rn imm => b.rt = some rt ∧ b.rn = some rn ∧ b.imm = some imm.toInt
  | .sturb rt rn imm => b.rt = some rt ∧ b.rn = some rn ∧ b.imm = some imm.toInt
  | .ldurh rt rn imm => b.rt = some rt ∧ b.rn = some rn ∧ b.imm = some imm.toInt
  | .sturh rt rn imm => b.rt = some rt ∧ b.rn = some rn ∧ b.imm = some imm.toInt
  | .ldursw rt rn imm => b.rt = some rt ∧ b.rn = some rn ∧ b.imm = some imm.toInt
  | .sturw rt rn imm => b.rt = some rt ∧ b.rn = some rn ∧ b.imm = some imm.toInt

end Sys2Proof.Machine
end

