-- ==== Sys2Proof/Certificates/Slice0/Obligations.lean ====
section
/-!
DEFINITION. The statements for the provers. They come from the numbered rules of spec/; each docstring names them. A
statement about every state holds for every value of the parameters of 00_scope.md R7, since State holds them (log 1).
-/

open Sys2Proof Sys2Proof.Machine

/-! ## Decoding -/

/-- 95_test_vectors.md section 4.3: words of every family decode to the instructions listed there. -/
def Obligations.DecodesTheManualsWords : Prop :=
  decodeWord 0#64 0x8B020023#32 = some (.add 3 1 2) ∧
  decodeWord 0#64 0xD36010A5#32 = some (.lsl 5 5 4) ∧
  decodeWord 0#64 0x913FFC21#32 = some (.addi 1 1 (-1#64)) ∧
  decodeWord 5#64 0x17FFFFFF#32 = some (.b 4) ∧
  decodeWord 10#64 0x54FFFF87#32 = some (.bVc 6) ∧
  decodeWord 4#64 0xB5FFFFC1#32 = some (.cbnz 1 2) ∧
  decodeWord 0#64 0xF81F8022#32 = some (.stur 2 1 (-8#64)) ∧
  decodeWord 0#64 0x8B000400#32 = none

/-- 30_encoding.md R89: no two rows of the opcode map overlap, so a word matches exactly one row or none. -/
def Obligations.OneRowOrNoneMatches : Prop :=
  (∀ o p : Op, o ≠ p → (o.pattern ^^^ p.pattern) &&& o.mask &&& p.mask ≠ 0#32) ∧
  ∀ w : Code, (∃ o : Op, w &&& o.mask = o.pattern ∧ findWord w = some o ∧ ∀ p : Op, w &&& p.mask = p.pattern → p = o) ∨
    ((∀ o : Op, w &&& o.mask ≠ o.pattern) ∧ findWord w = none)

/-- 30_encoding.md R96: the opcode map row by row; "a word w is the instruction if and only if `w AND mask = match`". -/
def Obligations.OpcodeMapDecidesTheWord : Prop :=
  ∀ row ∈ ([
    (.add, 0x8B000000#32, 0xFFE0FC00#32),
    (.adds, 0xAB000000#32, 0xFFE0FC00#32),
    (.sub, 0xCB000000#32, 0xFFE0FC00#32),
    (.subs, 0xEB000000#32, 0xFFE0FC00#32),
    (.and, 0x8A000000#32, 0xFFE0FC00#32),
    (.ands, 0xEA000000#32, 0xFFE0FC00#32),
    (.orr, 0xAA000000#32, 0xFFE0FC00#32),
    (.eor, 0xCA000000#32, 0xFFE0FC00#32),
    (.lsl, 0xD3600000#32, 0xFFFF0000#32),
    (.lsr, 0xD3400000#32, 0xFFFF0000#32),
    (.addi, 0x91000000#32, 0xFFC00000#32),
    (.addis, 0xB1000000#32, 0xFFC00000#32),
    (.subi, 0xD1000000#32, 0xFFC00000#32),
    (.subis, 0xF1000000#32, 0xFFC00000#32),
    (.andi, 0x92000000#32, 0xFFC00000#32),
    (.andis, 0xF2000000#32, 0xFFC00000#32),
    (.orri, 0xB2000000#32, 0xFFC00000#32),
    (.eori, 0xD2000000#32, 0xFFC00000#32),
    (.b, 0x14000000#32, 0xFC000000#32),
    (.bEq, 0x54000000#32, 0xFF00001F#32),
    (.bNe, 0x54000001#32, 0xFF00001F#32),
    (.bLt, 0x5400000B#32, 0xFF00001F#32),
    (.bLe, 0x5400000D#32, 0xFF00001F#32),
    (.bGt, 0x5400000C#32, 0xFF00001F#32),
    (.bGe, 0x5400000A#32, 0xFF00001F#32),
    (.bMi, 0x54000004#32, 0xFF00001F#32),
    (.bPl, 0x54000005#32, 0xFF00001F#32),
    (.bVs, 0x54000006#32, 0xFF00001F#32),
    (.bVc, 0x54000007#32, 0xFF00001F#32),
    (.cbnz, 0xB5000000#32, 0xFF000000#32),
    (.ldur, 0xF8400000#32, 0xFFE00C00#32),
    (.stur, 0xF8000000#32, 0xFFE00C00#32),
    (.ldurb, 0x38400000#32, 0xFFE00C00#32),
    (.sturb, 0x38000000#32, 0xFFE00C00#32),
    (.ldurh, 0x78400000#32, 0xFFE00C00#32),
    (.sturh, 0x78000000#32, 0xFFE00C00#32),
    (.ldursw, 0xB8800000#32, 0xFFE00C00#32),
    (.sturw, 0xB8000000#32, 0xFFE00C00#32)] : List (Op × Code × Code)),
  ∀ w : Code, findWord w = some row.1 ↔ w &&& row.2.2 = row.2.1

/-- 30_encoding.md R95: the ten condition numbers of a B.cond word; the other 22 values decode to nothing. -/
def Obligations.ConditionNumbersOfBcond : Prop :=
  ∀ (pc : Word) (w : Code), bits 24 8 w = 0b01010100#8 →
    let target := pc + (bits 5 19 w).signExtend 64
    decodeWord pc w =
      if bits 0 5 w = 0#5 then some (.bEq target) else if bits 0 5 w = 1#5 then some (.bNe target)
      else if bits 0 5 w = 4#5 then some (.bMi target) else if bits 0 5 w = 5#5 then some (.bPl target)
      else if bits 0 5 w = 6#5 then some (.bVs target) else if bits 0 5 w = 7#5 then some (.bVc target)
      else if bits 0 5 w = 10#5 then some (.bGe target) else if bits 0 5 w = 11#5 then some (.bLt target)
      else if bits 0 5 w = 12#5 then some (.bGt target) else if bits 0 5 w = 13#5 then some (.bLe target)
      else none

/-- 30_encoding.md R97: a field that the instruction does not use must be zero in a word; the bundle input ignores it
(the shift amount of a non-shift, Rm of a shift, the discriminator of a data transfer). -/
def Obligations.UnusedFieldsMustBeZeroInAWord : Prop :=
  (∀ (pc : Word) (w : Code), bits 10 6 w ≠ 0#6 →
    bits 21 11 w ∈ [0b10001011000#11, 0b10101011000#11, 0b11001011000#11, 0b11101011000#11, 0b10001010000#11,
      0b11101010000#11, 0b10101010000#11, 0b11001010000#11] → decodeWord pc w = none) ∧
  (∀ (pc : Word) (w : Code), bits 16 5 w ≠ 0#5 → bits 21 11 w ∈ [0b11010011011#11, 0b11010011010#11] →
    decodeWord pc w = none) ∧
  (∀ (pc : Word) (w : Code), bits 10 2 w ≠ 0#2 →
    bits 21 11 w ∈ [0b11111000010#11, 0b11111000000#11, 0b00111000010#11, 0b00111000000#11, 0b01111000010#11,
      0b01111000000#11, 0b10111000100#11, 0b10111000000#11] → decodeWord pc w = none) ∧
  (∀ (b : Bundle) (o : Op) (imm : Option Int), findMnemonic b.mnemonic = some o →
    o ∈ [Op.add, .adds, .sub, .subs, .and, .ands, .orr, .eor] →
    decodeBundle { b with imm := imm } = decodeBundle b) ∧
  (∀ (b : Bundle) (o : Op) (rm : Option Reg), findMnemonic b.mnemonic = some o → o ∈ [Op.lsl, .lsr] →
    decodeBundle { b with rm := rm } = decodeBundle b) ∧
  (∀ (b : Bundle) (disc : Option (BitVec 2)), decodeBundle { b with disc := disc } = decodeBundle b)

/-- 30_encoding.md R92 and R93: the targets of the branch words, relative to the branch's own PC, in instruction units. -/
def Obligations.BranchWordTargets : Prop :=
  (∀ (pc : Word) (w : Code), bits 26 6 w = 0b000101#6 →
    decodeWord pc w = some (.b (pc + BitVec.ofInt 64 (bits 0 26 w).toInt)) ∧
    -(2 ^ 25) ≤ (bits 0 26 w).toInt ∧ (bits 0 26 w).toInt ≤ 2 ^ 25 - 1) ∧
  (∀ (pc : Word) (w : Code), bits 24 8 w = 0b10110101#8 →
    decodeWord pc w = some (.cbnz (bits 0 5 w) (pc + BitVec.ofInt 64 (bits 5 19 w).toInt)) ∧
    -(2 ^ 18) ≤ (bits 5 19 w).toInt ∧ (bits 5 19 w).toInt ≤ 2 ^ 18 - 1) ∧
  (∀ (pc : Word) (w : Code) (target : Word),
    decodeWord pc w ∈ [some (.bEq target), some (.bNe target), some (.bLt target), some (.bLe target),
      some (.bGt target), some (.bGe target), some (.bMi target), some (.bPl target), some (.bVs target),
      some (.bVc target)] →
    target = pc + BitVec.ofInt 64 (bits 5 19 w).toInt)

/-- 30_encoding.md R82: the catalog's `find` is case-insensitive, the mnemonics differ ignoring case, and a mnemonic
that matches none raises `UnknownMnemonic`. Case is folded for ASCII letters (log 10). -/
def Obligations.MnemonicLookupIgnoresCase : Prop :=
  (∀ o : Op, findMnemonic o.name = some o) ∧
  (∀ m : String, findMnemonic (String.ofList (m.toList.map Char.toLower)) = findMnemonic m ∧
    findMnemonic (String.ofList (m.toList.map Char.toUpper)) = findMnemonic m) ∧
  (∀ o p : Op, foldCase o.name = foldCase p.name → o = p) ∧
  (∀ b : Bundle, findMnemonic b.mnemonic = none → decodeBundle b = .error (.unknownMnemonic 0#64))

/-- 30_encoding.md R81 and R80: a bundle with a known mnemonic is an instruction exactly when it carries the fields of
that instruction's format, in range; otherwise it raises `InvalidOperandBundle`. -/
def Obligations.BundleNeedsItsFormatsFields : Prop :=
  ∀ (b : Bundle) (o : Op), findMnemonic b.mnemonic = some o →
    (∀ i : Instr, decodeBundle b = .ok i ↔ i.op = o ∧ carries b i) ∧
    (decodeBundle b = .error .invalidOperandBundle ↔ ¬ ∃ i : Instr, i.op = o ∧ carries b i)

/-- Decode and encode agree (30_encoding.md R84 to R99): the word of a well-formed instruction, standing at `pc`, decodes
there to that instruction, every operand at every value the encoding admits. -/
def Obligations.DecodeOfEncode : Prop :=
  ∀ (pc : Word) (i : Instr), i.wellFormed pc = true → decodeWord pc (encode pc i) = some i

/-- Each legal word has one meaning and each decoded instruction one word (30_encoding.md R89 to R99): a word that
decodes is the encoding of a well-formed instruction, and no other word decodes to it. -/
def Obligations.EncodeOfDecode : Prop :=
  ∀ (pc : Word) (w : Code) (i : Instr), decodeWord pc w = some i → i.wellFormed pc = true ∧ encode pc i = w

/-- 30_encoding.md R99: "Both decode to the same operation and fields": every instruction is carried by a bundle (R80 to
R82), and a well-formed one by a word too (R84 to R96), with the same decoding. -/
def Obligations.WordAndBundleDecodeAlike : Prop :=
  ∀ (pc : Word) (i : Instr), decodeSlot pc (.bundle i.bundle) = .ok i ∧
    (i.wellFormed pc = true → decodeSlot pc (.word (encode pc i)) = decodeSlot pc (.bundle i.bundle))

/-! ## The step -/

/-- 10_state.md R38: a step at an unhalted state whose slot decodes to `i` is `exec` of `i` at that state; `exec` makes
the whole step, its PC mutation too. -/
def Obligations.StepRunsTheDecodedInstruction : Prop :=
  ∀ (s : State) (slot : Slot) (i : Instr), s.fault.faulted = false → s.program[s.pc.toNat]? = some slot →
    decodeSlot s.pc slot = .ok i → step s = exec i s

/-- The model's own entry point (log 6, not a rule of the spec): the state with a word placed where it fetches runs that
word's instruction in its very next step. -/
def Obligations.PlacedWordRunsNext : Prop :=
  ∀ (s : State) (nbits w : Nat) (i : Instr), decodeWord s.pc (BitVec.ofNat 32 (w % 2 ^ nbits)) = some i →
    step (s.withFetchWord nbits w) = exec i (s.withFetchWord nbits w)

/-- 60_exceptions.md R271 and R272: an illegal word and an unknown mnemonic raise code 1, a bundle without its fields
code 2; the record is written and nothing else changes. Code 2 cannot arise from a word: one that matches a row decodes. -/
def Obligations.DecodeFaultsAreRecorded : Prop :=
  ∀ (s : State) (slot : Slot), s.fault.faulted = false → s.program[s.pc.toNat]? = some slot →
    (∀ w : Code, slot = .word w → findWord w = none →
      step s = .next { s with fault := ⟨true, 1#3, s.pc, w.setWidth 64⟩ }) ∧
    (∀ (w : Code) (o : Op), slot = .word w → findWord w = some o → ∃ i : Instr, decodeSlot s.pc slot = .ok i) ∧
    (∀ b : Bundle, slot = .bundle b → findMnemonic b.mnemonic = none →
      step s = .next { s with fault := ⟨true, 1#3, s.pc, 0#64⟩ }) ∧
    (∀ (b : Bundle) (o : Op), slot = .bundle b → findMnemonic b.mnemonic = some o →
      (¬ ∃ i : Instr, i.op = o ∧ carries b i) → step s = .next { s with fault := ⟨true, 2#3, s.pc, 0#64⟩ })

/-- 70_reset_and_hazards.md R303: a state is in exactly one of three conditions; it has a step exactly when it is able to
step, and the other two have none. -/
def Obligations.RunIsInOneOfThreeConditions : Prop :=
  ∀ s : State,
    (s.condition = .ableToStep ↔ s.fault.faulted = false ∧ s.pc.toNat < s.program.length) ∧
    (s.condition = .endedNormally ↔ s.fault.faulted = false ∧ s.program.length ≤ s.pc.toNat) ∧
    (s.condition = .haltedByFault ↔ s.fault.faulted = true) ∧
    (s.condition = .ableToStep ↔ ∃ t : State, step s = .next t) ∧
    (s.condition = .endedNormally ↔ step s = .fault .endOfProgram) ∧
    (s.condition = .haltedByFault ↔ step s = .fault .haltedByFault)

/-- 60_exceptions.md R277: a step that raises a fault commits the fault record only, with the faulting PC, and the block
halts. -/
def Obligations.FaultCommitsOnlyItsRecord : Prop :=
  ∀ s t : State, step s = .next t → t.fault.faulted = true →
    t = { s with fault := t.fault } ∧ t.fault.fpc = s.pc ∧ t.fault.code ∈ [1#3, 2#3, 3#3, 4#3] ∧
    step t = .fault .haltedByFault

/-- 60_exceptions.md R278: a halted block is quiescent, no instruction clears the record, a reset does, and a fault is
not a normal end. -/
def Obligations.OnlyResetClearsTheRecord : Prop :=
  (∀ (s : State) (k : Nat), s.fault.faulted = true → Sys2Proof.core.run (k + 1) s = .fault .haltedByFault) ∧
  (∀ (i : Instr) (s t : State), exec i s = .next t → t.fault = s.fault ∨ t.fault.faulted = true) ∧
  (∀ (s : State) (init : InitValues), (applyReset init s).fault = ⟨false, 0#3, 0#64, 0#64⟩) ∧
  (∀ s : State, s.fault.faulted = true → s.condition ≠ .endedNormally)

/-- 60_exceptions.md R276: the one fault a step raises is the first of: unknown mnemonic, invalid bundle, access out of
range, access misaligned. -/
def Obligations.FaultsFollowTheirPriority : Prop :=
  ∀ (s : State) (slot : Slot), s.fault.faulted = false → s.program[s.pc.toNat]? = some slot →
    ∃ t : State, step s = .next t ∧ t.fault =
      match decodeSlot s.pc slot with
      | .error (.unknownMnemonic info) => ⟨true, 1#3, s.pc, info⟩
      | .error .invalidOperandBundle => ⟨true, 2#3, s.pc, 0#64⟩
      | .ok i =>
        match dataAccess i with
        | none => s.fault
        | some (rn, imm, n) =>
          let ea := effectiveAddress s rn imm
          if s.cfg.memSize < ea.toNat + n then ⟨true, 3#3, s.pc, ea⟩
          else if s.cfg.alignCheck = true ∧ ea.toNat % n ≠ 0 then ⟨true, 4#3, s.pc, ea⟩
          else s.fault

/-- 10_state.md R33 and R34: the next PC is the branch target or `pc + 1` modulo 2^64; a faulting instruction keeps the
PC. -/
def Obligations.NextPcIsTargetOrPlusOne : Prop :=
  ∀ (i : Instr) (s t : State), exec i s = .next t → s.fault.faulted = false →
    t.pc = if t.fault.faulted = true then s.pc
      else match branchesTo s i with
        | some target => target
        | none => BitVec.ofNat 64 ((s.pc.toNat + 1) % 2 ^ 64)

/-- 60_exceptions.md R275: an instruction that makes no data access cannot fault once decoded. -/
def Obligations.OnlyDataTransfersFault : Prop :=
  ∀ (i : Instr) (s : State), dataAccess i = none → ∃ t : State, exec i s = .next t ∧ t.fault = s.fault

/-- 10_state.md R24, 20_memory.md R50 and R54, 44_data_transfer.md R230: an instruction changes no register but its
destination and no byte of memory but those it stores to, at its effective address. -/
def Obligations.InstructionsWriteOnlyTheirDestinations : Prop :=
  ∀ (i : Instr) (s t : State), exec i s = .next t →
    (∀ r : Reg, destination i ≠ some r → t.x r = s.x r) ∧
    (∀ a : Nat,
      (match storedBytes s i with
       | none => True
       | some (ea, n) => a < ea.toNat ∨ ea.toNat + n ≤ a) → t.byteAt a = s.byteAt a)

/-- 20_memory.md R66 and 10_state.md R37: no step changes the program store. That the parameters of 00_scope.md R7 stand in
the state at all, and that no step changes them there, is the model's choice (log 1). -/
def Obligations.ProgramIsNeverWritten : Prop :=
  ∀ s t : State, step s = .next t → t.program = s.program ∧ t.cfg = s.cfg

/-! ## Flags -/

/-- 10_state.md R27: exactly ADDS, SUBS, ADDIS and SUBIS write the flag register. -/
def Obligations.ExactlyFourInstructionsWriteFlags : Prop :=
  (∀ (i : Instr) (s t : State), exec i s = .next t → i.op ∉ [Op.adds, .subs, .addis, .subis] → t.flags = s.flags) ∧
  (∀ o ∈ [Op.adds, .subs, .addis, .subis], ∃ (i : Instr) (s t : State),
    i.op = o ∧ exec i s = .next t ∧ t.flags ≠ s.flags)

/-- 10_state.md R28: no instruction reads C. A step from a state with another C has the same outcome, C apart. -/
def Obligations.NoInstructionReadsC : Prop :=
  ∀ (s : State) (c : Bool),
    match step s with
    | .next t => ∃ c' : Bool, step (s.withC c) = .next (t.withC c')
    | .fault r => step (s.withC c) = .fault r
    | .refused r => step (s.withC c) = .refused r

/-- 40_arithmetic.md R123, for an addition: V is set exactly when the signed sum does not fit 64 bits. -/
def Obligations.AddOverflowIsSignedOverflow : Prop :=
  ∀ a b : Word, ovf a b (a + b) = true ↔ a.toInt + b.toInt < -(2 ^ 63) ∨ 2 ^ 63 ≤ a.toInt + b.toInt

/-- 40_arithmetic.md R126: the carry of a subtraction is 1 exactly when `a >= b` unsigned, for `b != 0`; it is 0 for
`b = 0`. -/
def Obligations.SubtractionCarryIsNoBorrow : Prop :=
  ∀ a b : Word, (b ≠ 0#64 → (carry a (neg64 b) = true ↔ b.toNat ≤ a.toNat)) ∧ carry a (neg64 0#64) = false

/-- 40_arithmetic.md R125: the overflow check of a subtraction under both values of `SUB_V_RULE`, and what the literal
rule amounts to. -/
def Obligations.SubtractionOverflowRules : Prop :=
  (∀ a b r : Word, vsub .literal a b r = ovf a b r ∧ vsub .negated a b r = ovf a (neg64 b) r) ∧
  ∀ a b : Word, let v := vsub .literal a b (a - b); let n := nflag (a - b)
    (v = true → a.getLsbD 63 = b.getLsbD 63) ∧
    (a.toInt - b.toInt < -(2 ^ 63) ∨ 2 ^ 63 ≤ a.toInt - b.toInt → v = false) ∧
    (0 ≤ a.toInt → 0 ≤ b.toInt → v = n) ∧
    (a.toInt < 0 → b.toInt < 0 → v = !n) ∧
    (a.getLsbD 63 ≠ b.getLsbD 63 → v = false)

/-- 42_branch.md R191 (its derived consequences): SUBS and then B.LT or B.GE. Under the literal rule the branch follows
the operands' signs; under the negated rule it is the signed comparison, but for the subtrahend -2^63. -/
def Obligations.CompareThenSignedBranch : Prop :=
  ∀ (s t : State) (rd rn rm : Reg), exec (.subs rd rn rm) s = .next t →
    let a := s.x rn; let b := s.x rm
    (s.cfg.subV = .literal →
      (0 ≤ a.toInt → 0 ≤ b.toInt → Cond.lt.holds t.flags = false ∧ Cond.ge.holds t.flags = true) ∧
      (a.toInt < 0 → b.toInt < 0 → Cond.lt.holds t.flags = true ∧ Cond.ge.holds t.flags = false) ∧
      (a.getLsbD 63 ≠ b.getLsbD 63 → t.flags.v = false ∧ Cond.lt.holds t.flags = t.flags.n)) ∧
    (s.cfg.subV = .negated → b ≠ 0x8000000000000000#64 →
      (Cond.lt.holds t.flags = true ↔ a.toInt < b.toInt) ∧ (Cond.ge.holds t.flags = true ↔ b.toInt ≤ a.toInt))

/-! ## Instructions: results, frames and completion -/

/-- 40_arithmetic.md R127, R129, R131 to R134: ADD, SUB, AND, ANDS, ORR and EOR complete with their result in Rd, no flag
written (ANDS included). -/
def Obligations.RegisterArithmeticResults : Prop :=
  ∀ (s : State) (rd rn rm : Reg), let a := s.x rn; let b := s.x rm
    (∃ t, exec (.add rd rn rm) s = .next t ∧
      registerResult s t rd (BitVec.ofNat 64 ((a.toNat + b.toNat) % 2 ^ 64)) s.flags) ∧
    (∃ t, exec (.sub rd rn rm) s = .next t ∧
      registerResult s t rd (BitVec.ofInt 64 (a.toNat - b.toNat : Int)) s.flags) ∧
    (∃ t, exec (.and rd rn rm) s = .next t ∧ registerResult s t rd (a &&& b) s.flags) ∧
    (∃ t, exec (.ands rd rn rm) s = .next t ∧ registerResult s t rd (a &&& b) s.flags) ∧
    (∃ t, exec (.orr rd rn rm) s = .next t ∧ registerResult s t rd (a ||| b) s.flags) ∧
    (∃ t, exec (.eor rd rn rm) s = .next t ∧ registerResult s t rd (a ^^^ b) s.flags)

/-- 40_arithmetic.md R135 and R136: LSL multiplies by `2^sh` modulo 2^64, LSR divides by `2^sh`; no flag is written. -/
def Obligations.ShiftResults : Prop :=
  ∀ (s : State) (rd rn : Reg) (sh : BitVec 6), let a := s.x rn
    (∃ t, exec (.lsl rd rn sh) s = .next t ∧
      registerResult s t rd (BitVec.ofNat 64 (a.toNat * 2 ^ sh.toNat % 2 ^ 64)) s.flags) ∧
    (∃ t, exec (.lsr rd rn sh) s = .next t ∧
      registerResult s t rd (BitVec.ofNat 64 (a.toNat / 2 ^ sh.toNat)) s.flags)

/-- 40_arithmetic.md R128 and R130: ADDS and SUBS complete with their result in Rd and all four flags written from the old
operands, for both values of `SUB_V_RULE`. -/
def Obligations.FlagSettingRegisterResults : Prop :=
  ∀ (s : State) (rd rn rm : Reg), let a := s.x rn; let b := s.x rm
    (∃ t, exec (.adds rd rn rm) s = .next t ∧
      registerResult s t rd (a + b)
        { n := (a + b).getLsbD 63, z := decide (a + b = 0#64), c := decide (2 ^ 64 ≤ a.toNat + b.toNat),
          v := decide (a.getLsbD 63 = b.getLsbD 63 ∧ (a + b).getLsbD 63 ≠ a.getLsbD 63) }) ∧
    (∃ t, exec (.subs rd rn rm) s = .next t ∧
      registerResult s t rd (a - b)
        { n := (a - b).getLsbD 63, z := decide (a = b), c := decide (b ≠ 0#64 ∧ b.toNat ≤ a.toNat),
          v := match s.cfg.subV with
            | .literal => decide (a.getLsbD 63 = b.getLsbD 63 ∧ (a - b).getLsbD 63 ≠ a.getLsbD 63)
            | .negated => decide (a.getLsbD 63 = (-b).getLsbD 63 ∧ (a - b).getLsbD 63 ≠ a.getLsbD 63) })

/-- 41_immediate.md R161, R163, R165 to R168: ADDI, SUBI, ANDI, ANDIS, ORRI and EORI complete with their result in Rd, no
flag written (ANDIS included). -/
def Obligations.ImmediateArithmeticResults : Prop :=
  ∀ (s : State) (rd rn : Reg) (imm : Word), let a := s.x rn
    (∃ t, exec (.addi rd rn imm) s = .next t ∧
      registerResult s t rd (BitVec.ofInt 64 (a.toInt + imm.toInt)) s.flags) ∧
    (∃ t, exec (.subi rd rn imm) s = .next t ∧
      registerResult s t rd (BitVec.ofInt 64 (a.toInt - imm.toInt)) s.flags) ∧
    (∃ t, exec (.andi rd rn imm) s = .next t ∧ registerResult s t rd (a &&& imm) s.flags) ∧
    (∃ t, exec (.andis rd rn imm) s = .next t ∧ registerResult s t rd (a &&& imm) s.flags) ∧
    (∃ t, exec (.orri rd rn imm) s = .next t ∧ registerResult s t rd (a ||| imm) s.flags) ∧
    (∃ t, exec (.eori rd rn imm) s = .next t ∧ registerResult s t rd (a ^^^ imm) s.flags)

/-- 41_immediate.md R162 and R164: ADDIS completes and writes N, Z and V, and C by `ADDIS_C_POLICY`; SUBIS completes and
writes all four flags. -/
def Obligations.FlagSettingImmediateResults : Prop :=
  ∀ (s : State) (rd rn : Reg) (imm : Word), let a := s.x rn
    (∃ t, exec (.addis rd rn imm) s = .next t ∧
      registerResult s t rd (a + imm)
        { n := (a + imm).getLsbD 63, z := decide (a + imm = 0#64),
          c := match s.cfg.addisC with
            | .clear => false
            | .preserve => s.flags.c
          v := decide (a.getLsbD 63 = imm.getLsbD 63 ∧ (a + imm).getLsbD 63 ≠ a.getLsbD 63) }) ∧
    (∃ t, exec (.subis rd rn imm) s = .next t ∧
      registerResult s t rd (a - imm)
        { n := (a - imm).getLsbD 63, z := decide (a = imm), c := decide (imm ≠ 0#64 ∧ imm.toNat ≤ a.toNat),
          v := match s.cfg.subV with
            | .literal => decide (a.getLsbD 63 = imm.getLsbD 63 ∧ (a - imm).getLsbD 63 ≠ a.getLsbD 63)
            | .negated => decide (a.getLsbD 63 = (-imm).getLsbD 63 ∧ (a - imm).getLsbD 63 ≠ a.getLsbD 63) })

/-- 42_branch.md R192: B completes with `pc <- target` and changes nothing else. -/
def Obligations.UnconditionalBranchResult : Prop :=
  ∀ (s : State) (target : Word), exec (.b target) s = .next { s with pc := target }

/-- 42_branch.md R193 to R202: each conditional branch completes, taken if and only if its condition holds, otherwise the
PC advances by one; nothing else changes; and its word is the one of the rule's encoding. -/
def Obligations.ConditionalBranchResults : Prop :=
  (∀ (s : State) (target : Word), let n := s.flags.n; let z := s.flags.z; let v := s.flags.v; let next := s.pc + 1#64
    exec (.bEq target) s = .next { s with pc := if z = true then target else next } ∧
    exec (.bNe target) s = .next { s with pc := if z = false then target else next } ∧
    exec (.bLt target) s = .next { s with pc := if n ≠ v then target else next } ∧
    exec (.bLe target) s = .next { s with pc := if ¬(z = false ∧ n = v) then target else next } ∧
    exec (.bGt target) s = .next { s with pc := if z = false ∧ n = v then target else next } ∧
    exec (.bGe target) s = .next { s with pc := if n = v then target else next } ∧
    exec (.bMi target) s = .next { s with pc := if n = true then target else next } ∧
    exec (.bPl target) s = .next { s with pc := if n = false then target else next } ∧
    exec (.bVs target) s = .next { s with pc := if v = true then target else next } ∧
    exec (.bVc target) s = .next { s with pc := if v = false then target else next }) ∧
  ∀ row ∈ ([(.bEq, 0x54000000#32, 0#5), (.bNe, 0x54000001#32, 1#5), (.bLt, 0x5400000B#32, 11#5),
      (.bLe, 0x5400000D#32, 13#5), (.bGt, 0x5400000C#32, 12#5), (.bGe, 0x5400000A#32, 10#5), (.bMi, 0x54000004#32, 4#5),
      (.bPl, 0x54000005#32, 5#5), (.bVs, 0x54000006#32, 6#5), (.bVc, 0x54000007#32, 7#5)] : List (Op × Code × BitVec 5)),
    ∀ w : Code, findWord w = some row.1 ↔ w &&& 0xFF00001F#32 = row.2.1 ∧ bits 0 5 w = row.2.2

/-- 43_cbnz.md R220 and R221: CBNZ completes, taken exactly when Rt is non-zero; it makes the one PC mutation itself in
both cases, so a not-taken CBNZ ends at `pc + 1`, never `pc + 2`. -/
def Obligations.CbnzMutatesThePcOnce : Prop :=
  ∀ (s : State) (rt : Reg) (target : Word),
    exec (.cbnz rt target) s = .next { s with pc := if s.x rt ≠ 0#64 then target else s.pc + 1#64 } ∧
    (cbnzEffects rt target s).pcSrc = (if s.x rt ≠ 0#64 then .instrTarget else .instrDefault) ∧
    (∀ c : Cond, (condBranchEffects c target s).pcSrc =
      if c.holds s.flags = true then .instrTarget else .driverDefault)

/-- 44_data_transfer.md R230: the effective address is base plus offset, "signed 64-bit addition, wraps". -/
def Obligations.EffectiveAddressWraps : Prop :=
  ∀ (s : State) (rn : Reg) (imm : Word),
    (effectiveAddress s rn imm).toNat = ((s.x rn).toNat + imm.toNat) % 2 ^ 64 ∧
    effectiveAddress s rn imm = BitVec.ofInt 64 ((s.x rn).toNat + imm.toInt) ∧
    (s.cfg.xzrHardwired = true → effectiveAddress s 31#5 imm = imm)

/-- 44_data_transfer.md R232, R234, R236 and R238: each load completes where its access passes the checks, with the bytes
read little-endian and extended (doubleword none, byte and halfword zero, word sign). -/
def Obligations.LoadResults : Prop :=
  ∀ (s : State) (rt rn : Reg) (imm : Word), let ea := effectiveAddress s rn imm
    (accessAllowed s ea 8 → ∃ t, exec (.ldur rt rn imm) s = .next t ∧
      registerResult s t rt (BitVec.ofNat 64 (littleEndian s ea.toNat 8)) s.flags) ∧
    (accessAllowed s ea 1 → ∃ t, exec (.ldurb rt rn imm) s = .next t ∧
      registerResult s t rt (BitVec.ofNat 64 (littleEndian s ea.toNat 1)) s.flags) ∧
    (accessAllowed s ea 2 → ∃ t, exec (.ldurh rt rn imm) s = .next t ∧
      registerResult s t rt (BitVec.ofNat 64 (littleEndian s ea.toNat 2)) s.flags) ∧
    (accessAllowed s ea 4 → ∃ t, exec (.ldursw rt rn imm) s = .next t ∧
      registerResult s t rt (BitVec.ofInt 64 (BitVec.ofNat 32 (littleEndian s ea.toNat 4)).toInt) s.flags)

/-- 44_data_transfer.md R233, R235, R237 and R239: each store completes where its access passes the checks; it writes the
low bytes of Rt at the effective address and no other byte. -/
def Obligations.StoreResults : Prop :=
  ∀ (s : State) (rt rn : Reg) (imm : Word), s.mem.wf → let ea := effectiveAddress s rn imm
    (accessAllowed s ea 8 → ∃ t, exec (.stur rt rn imm) s = .next t ∧ storeResult s t ea 8 (s.x rt)) ∧
    (accessAllowed s ea 1 → ∃ t, exec (.sturb rt rn imm) s = .next t ∧ storeResult s t ea 1 (s.x rt)) ∧
    (accessAllowed s ea 2 → ∃ t, exec (.sturh rt rn imm) s = .next t ∧ storeResult s t ea 2 (s.x rt)) ∧
    (accessAllowed s ea 4 → ∃ t, exec (.sturw rt rn imm) s = .next t ∧ storeResult s t ea 4 (s.x rt))

/-- 60_exceptions.md R273 and R274: a data transfer whose access is not in range raises code 3, one misaligned where
alignment is enforced code 4, with `info = ea`; the record is all that changes. A byte access is never misaligned, and an
access that passes both checks raises no fault. -/
def Obligations.DataTransferFaults : Prop :=
  ∀ (i : Instr) (s : State) (rn : Reg) (imm : Word) (n : Nat), dataAccess i = some (rn, imm, n) →
    let ea := effectiveAddress s rn imm
    (s.cfg.memSize < ea.toNat + n → exec i s = .next { s with fault := ⟨true, 3#3, s.pc, ea⟩ }) ∧
    (ea.toNat + n ≤ s.cfg.memSize → s.cfg.alignCheck = true → ea.toNat % n ≠ 0 →
      exec i s = .next { s with fault := ⟨true, 4#3, s.pc, ea⟩ } ∧ n ≠ 1) ∧
    (accessAllowed s ea n → ∃ t : State, exec i s = .next t ∧ t.fault = s.fault)

/-- 00_scope.md, 95_test_vectors.md S7: a doubleword stored is the doubleword loaded, and a word stored and loaded by
LDURSW comes back sign-extended from bit 31, at the same base and offset. -/
def Obligations.StoreThenLoadRoundTrips : Prop :=
  ∀ (s : State) (rt rt' rn : Reg) (imm : Word), s.mem.wf → rt' ≠ 31#5 → let ea := effectiveAddress s rn imm
    (accessAllowed s ea 8 → ∃ t u, exec (.stur rt rn imm) s = .next t ∧ exec (.ldur rt' rn imm) t = .next u ∧
      u.x rt' = s.x rt) ∧
    (accessAllowed s ea 4 → ∃ t u, exec (.sturw rt rn imm) s = .next t ∧ exec (.ldursw rt' rn imm) t = .next u ∧
      u.x rt' = ((s.x rt).setWidth 32).signExtend 64)

/-! ## Registers and memory -/

/-- 10_state.md R22: when hardwired, register 31 reads 0 and a write to it changes no register; every other register, and
register 31 when not hardwired, reads the last value written, or the reset value if none was written. -/
def Obligations.RegisterThirtyOneIsZero : Prop :=
  (∀ (regs : Vector Word 32) (wd : Word), readPort true regs 31#5 = 0#64 ∧ writePort true regs 31#5 wd = regs) ∧
  (∀ (hardwired : Bool) (regs : Vector Word 32) (wa ra : Reg) (wd : Word), ¬(hardwired = true ∧ wa = 31#5) →
    readPort hardwired (writePort hardwired regs wa wd) ra =
      if ra = wa then wd else readPort hardwired regs ra) ∧
  (∀ (s : State) (init : InitValues) (r : Reg), ¬(s.cfg.xzrHardwired = true ∧ r = 31#5) →
    (applyReset init s).x r = init.regs[r.toNat]'r.isLt)

/-- The model's choice (log 13): what is stored in a hardwired register 31 is not part of the machine. A step from a state
with another stored word has the same outcome, that word apart. -/
def Obligations.StoredZeroRegisterIsInvisible : Prop :=
  ∀ (s : State) (v : Word), s.cfg.xzrHardwired = true →
    (∀ r : Reg, (s.withStored31 v).x r = s.x r) ∧
    match step s with
    | .next t => step (s.withStored31 v) = .next (t.withStored31 v)
    | .fault r => step (s.withStored31 v) = .fault r
    | .refused r => step (s.withStored31 v) = .refused r

/-- 20_memory.md R53: a read of `n` bytes puts the byte at the lowest address in the least significant place. -/
def Obligations.ReadIsLittleEndian : Prop :=
  ∀ (m : Memory) (ea n : Nat),
    (∀ i : Nat, i < n → (memRead m ea n).extractLsb' (8 * i) 8 = m.read (ea + i)) ∧
    (memRead m ea 8).extractLsb' 0 8 = m.read ea ∧ (memRead m ea 8).extractLsb' 56 8 = m.read (ea + 7)

/-- 20_memory.md R54: a write changes exactly the `n` bytes it names. That memory has a canonical form, which the write
starts from and keeps, is the model's choice (log 5). -/
def Obligations.WriteChangesExactlyItsBytes : Prop :=
  ∀ (m : Memory) (ea n : Nat) (v : Word), m.wf →
    (∀ i : Nat, i < n → (memWrite m ea n v).read (ea + i) = v.extractLsb' (8 * i) 8) ∧
    (∀ a : Nat, a < ea ∨ ea + n ≤ a → (memWrite m ea n v).read a = m.read a) ∧
    (memWrite m ea n v).wf

/-- The model's choice (log 5, not a rule of the spec): data memory is held as a list in one canonical form. Two memories in
that form that read alike everywhere are the same data. -/
def Obligations.CanonicalMemoriesAreEqual : Prop :=
  ∀ m m' : Memory, m.wf → m'.wf → (∀ a : Nat, m.read a = m'.read a) → m = m'

/-- 20_memory.md R55: an access sees the bytes the last writes left, whatever their width; the rule's example at every
address. -/
def Obligations.MixedWidthsSeeTheLastBytes : Prop :=
  (∀ (m : Memory) (ea n a k i : Nat) (v : Word), m.wf → i < k →
    (memRead (memWrite m ea n v) a k).extractLsb' (8 * i) 8 =
      if ea ≤ a + i ∧ a + i < ea + n then v.extractLsb' (8 * (a + i - ea)) 8 else m.read (a + i)) ∧
  ∀ (m : Memory) (a : Nat), m.wf → let m' := memWrite m a 8 0x1122334455667788#64
    memRead m' a 1 = 0x88#8 ∧ memRead m' (a + 6) 2 = 0x1122#16 ∧ memRead m' (a + 4) 4 = 0x11223344#32

/-! ## Reset and invariants -/

/-- 70_reset_and_hazards.md R300, 10_state.md R40: what a reset leaves, for every value of the open items; the program is
not changed, and the block is able to step unless the entry point is past the program. -/
def Obligations.ResetLeavesTheResetValues : Prop :=
  ∀ (s : State) (init : InitValues), let t := applyReset init s
    (∀ r : Reg, t.x r = if s.cfg.xzrHardwired = true ∧ r = 31#5 then 0#64 else init.regs[r.toNat]'r.isLt) ∧
    t.flags = init.flags ∧ t.pc = 0#64 ∧ t.mem = init.mem ∧ t.fault = ⟨false, 0#3, 0#64, 0#64⟩ ∧
    t.program = s.program ∧ t.cfg = s.cfg ∧
    (t.condition = if s.program = [] then .endedNormally else .ableToStep)

/-- The model's `State.reset`: the values of 10_state.md R40, with the model's own for the open items (DESIGN CHOICE:
registers log 3, flags log 4, memory log 5, no program log 6, `MEM_SIZE` log 2). -/
def Obligations.ModelResetValues : Prop :=
  State.reset.pc = 0#64 ∧ State.reset.fault = ⟨false, 0#3, 0#64, 0#64⟩ ∧ (∀ r : Reg, State.reset.x r = 0#64) ∧
  State.reset.flags = ⟨false, false, false, false⟩ ∧ (∀ a : Nat, State.reset.byteAt a = 0#8) ∧
  State.reset.program = [] ∧ State.reset.cfg = ⟨true, 4096, false, .clear, .literal⟩

/-- The model's invariant holds at the model's `State.reset`. Both rest on the model's choices: the values of `State.reset`
for the open items (logs 2 to 6), the canonical form of memory (log 5) and the stored word of register 31 (log 13). -/
def Obligations.InvariantHoldsAtReset : Prop := State.reset.Inv

/-- The invariant holds after every launch and every reset that 70_reset_and_hazards.md R300 and R304 allow, from any state.
That initial memory is given in a canonical form, which the invariant keeps (log 5), and that a hardwired register 31 is
stored as 0 (log 13) are the model's choices. -/
def Obligations.InvariantHoldsAfterLaunch : Prop :=
  ∀ (s : State) (cfg : Config) (program : List Slot) (init : InitValues), launchOk cfg init →
    (applyReset init { s with cfg := cfg, program := program }).Inv

/-- Every step keeps the invariant: parameters in bounds and memory in range (20_memory.md R51), and a fault record as
10_state.md R35 and 60_exceptions.md R270, R274 and R277 leave it. Two clauses are the model's choices: memory in its
canonical form (log 5), and the stored word of a hardwired register 31, which 10_state.md R22 says only reads as 0, stored
as 0 (log 13). -/
def Obligations.StepKeepsTheInvariant : Prop :=
  ∀ s t : State, s.Inv → step s = .next t → t.Inv

/-- Every state the driver can bring the block to, by launches, resets and steps, has the invariant, keeps its program
apart from its data, and stops only as 70_reset_and_hazards.md R303 says. The invariant's canonical memory (log 5) and
register 31 stored as 0 (log 13) are the model's choices, and so is that a later reset may bring other `INIT` values than
the launch's (log 19). -/
def Obligations.ReachableStatesAreConsistent : Prop :=
  ∀ s : State, Reachable s → s.Inv ∧
    ((∃ t : State, step s = .next t ∧ Reachable t ∧ t.program = s.program) ∨ step s = .fault .endOfProgram ∨
      (step s = .fault .haltedByFault ∧ s.fault.fpc = s.pc ∧ s.fault.code ≠ 0#3))
end

