-- ==== Sys2Proof/Laws/Decode.lean ====
section
/-!
SUPPORT. The opcode map has no overlap (spec/30_encoding.md R89), so the row a word matches is the row the decoder finds;
the fields of an encoded word are the fields it was built from.
-/

namespace Sys2Proof

theorem mem_all (o : Op) : o ∈ Op.all := by cases o <;> decide

/-- "for every pair of rows, `(match1 XOR match2) AND mask1 AND mask2 != 0`" (30_encoding.md R89). -/
theorem rows_disjoint :
    ∀ o ∈ Op.all, ∀ p ∈ Op.all, o ≠ p → (o.pattern ^^^ p.pattern) &&& o.mask &&& p.mask ≠ 0#32 := by
  decide

theorem accepts_iff (o : Op) (w : Code) : o.accepts w = true ↔ w &&& o.mask = o.pattern := by
  simp [Op.accepts]

/-- At most one row matches a word (30_encoding.md R89). -/
theorem accepts_unique {o p : Op} {w : Code} (ho : o.accepts w = true) (hp : p.accepts w = true) : o = p := by
  by_contra hne
  apply rows_disjoint o (mem_all o) p (mem_all p) hne
  rw [accepts_iff] at ho hp
  rw [← ho, ← hp]
  ext i
  simp only [BitVec.getElem_and, BitVec.getElem_xor, BitVec.getElem_zero]
  cases w[i] <;> cases (o.mask)[i] <;> cases (p.mask)[i] <;> rfl

/-- The decoder finds the row a word matches (30_encoding.md R96). -/
theorem findWord_eq_some {o : Op} {w : Code} : findWord w = some o ↔ o.accepts w = true := by
  constructor
  · exact fun h => List.find?_some (p := fun q : Op => q.accepts w) h
  · intro h
    cases hf : findWord w with
    | none => exact absurd h (List.find?_eq_none.mp hf o (mem_all o))
    | some p => rw [accepts_unique h (List.find?_some (p := fun q : Op => q.accepts w) hf)]

theorem findWord_eq_none {w : Code} : findWord w = none ↔ ∀ o : Op, ¬ o.accepts w = true :=
  ⟨fun h o => List.find?_eq_none.mp h o (mem_all o), fun h => List.find?_eq_none.mpr fun o _ => h o⟩

/-! ## The fields of encoded words (30_encoding.md R84 to R88) -/

section
variable (rm rn rd : Reg) (sh : BitVec 6) (imm off : Word)

theorem encodeR_rd (op : BitVec 11) : fieldRd (encodeR op rm sh rn rd) = rd := by
  apply BitVec.eq_of_getLsbD_eq
  intro i hi
  simp only [fieldRd, bits, encodeR, BitVec.getLsbD_extractLsb', BitVec.getLsbD_cast, BitVec.getLsbD_append]
  interval_cases i <;> simp

theorem encodeR_rn (op : BitVec 11) : fieldRn (encodeR op rm sh rn rd) = rn := by
  apply BitVec.eq_of_getLsbD_eq
  intro i hi
  simp only [fieldRn, bits, encodeR, BitVec.getLsbD_extractLsb', BitVec.getLsbD_cast, BitVec.getLsbD_append]
  interval_cases i <;> simp

theorem encodeR_rm (op : BitVec 11) : fieldRm (encodeR op rm sh rn rd) = rm := by
  apply BitVec.eq_of_getLsbD_eq
  intro i hi
  simp only [fieldRm, bits, encodeR, BitVec.getLsbD_extractLsb', BitVec.getLsbD_cast, BitVec.getLsbD_append]
  interval_cases i <;> simp

theorem encodeR_shamt (op : BitVec 11) : fieldShamt (encodeR op rm sh rn rd) = sh := by
  apply BitVec.eq_of_getLsbD_eq
  intro i hi
  simp only [fieldShamt, bits, encodeR, BitVec.getLsbD_extractLsb', BitVec.getLsbD_cast, BitVec.getLsbD_append]
  interval_cases i <;> simp

theorem encodeI_rd (op : BitVec 10) : fieldRd (encodeI op imm rn rd) = rd := by
  apply BitVec.eq_of_getLsbD_eq
  intro i hi
  simp only [fieldRd, bits, encodeI, BitVec.getLsbD_extractLsb', BitVec.getLsbD_cast, BitVec.getLsbD_append]
  interval_cases i <;> simp

theorem encodeI_rn (op : BitVec 10) : fieldRn (encodeI op imm rn rd) = rn := by
  apply BitVec.eq_of_getLsbD_eq
  intro i hi
  simp only [fieldRn, bits, encodeI, BitVec.getLsbD_extractLsb', BitVec.getLsbD_cast, BitVec.getLsbD_append]
  interval_cases i <;> simp

theorem encodeI_imm (op : BitVec 10) : bits 10 12 (encodeI op imm rn rd) = imm.setWidth 12 := by
  apply BitVec.eq_of_getLsbD_eq
  intro i hi
  simp only [bits, encodeI, BitVec.getLsbD_setWidth, BitVec.getLsbD_extractLsb', BitVec.getLsbD_cast, BitVec.getLsbD_append]
  interval_cases i <;> simp

theorem encodeD_rt (op : BitVec 11) : fieldRd (encodeD op imm rn rd) = rd := by
  apply BitVec.eq_of_getLsbD_eq
  intro i hi
  simp only [fieldRd, bits, encodeD, BitVec.getLsbD_extractLsb', BitVec.getLsbD_cast, BitVec.getLsbD_append]
  interval_cases i <;> simp

theorem encodeD_rn (op : BitVec 11) : fieldRn (encodeD op imm rn rd) = rn := by
  apply BitVec.eq_of_getLsbD_eq
  intro i hi
  simp only [fieldRn, bits, encodeD, BitVec.getLsbD_extractLsb', BitVec.getLsbD_cast, BitVec.getLsbD_append]
  interval_cases i <;> simp

theorem encodeD_imm (op : BitVec 11) : bits 12 9 (encodeD op imm rn rd) = imm.setWidth 9 := by
  apply BitVec.eq_of_getLsbD_eq
  intro i hi
  simp only [bits, encodeD, BitVec.getLsbD_setWidth, BitVec.getLsbD_extractLsb', BitVec.getLsbD_cast, BitVec.getLsbD_append]
  interval_cases i <;> simp

theorem encodeB_offset (op : BitVec 6) : bits 0 26 (encodeB op off) = off.setWidth 26 := by
  apply BitVec.eq_of_getLsbD_eq
  intro i hi
  simp only [bits, encodeB, BitVec.getLsbD_setWidth, BitVec.getLsbD_extractLsb', BitVec.getLsbD_cast, BitVec.getLsbD_append]
  interval_cases i <;> simp

theorem encodeCB_rt (op : BitVec 8) : fieldRd (encodeCB op off rd) = rd := by
  apply BitVec.eq_of_getLsbD_eq
  intro i hi
  simp only [fieldRd, bits, encodeCB, BitVec.getLsbD_extractLsb', BitVec.getLsbD_cast, BitVec.getLsbD_append]
  interval_cases i <;> simp

theorem encodeCB_offset (op : BitVec 8) : bits 5 19 (encodeCB op off rd) = off.setWidth 19 := by
  apply BitVec.eq_of_getLsbD_eq
  intro i hi
  simp only [bits, encodeCB, BitVec.getLsbD_setWidth, BitVec.getLsbD_extractLsb', BitVec.getLsbD_cast, BitVec.getLsbD_append]
  interval_cases i <;> simp

end

/-! ## The masked bits of encoded words (30_encoding.md R96, R97) -/

section
variable (rm rn rd : Reg) (sh : BitVec 6) (imm off : Word)

theorem encodeR_masked (op : BitVec 11) : encodeR op rm 0#6 rn rd &&& 0xFFE0FC00#32 = op.setWidth 32 <<< 21 := by
  apply BitVec.eq_of_getLsbD_eq
  intro i hi
  simp only [encodeR, BitVec.getLsbD_setWidth, BitVec.getLsbD_shiftLeft, BitVec.getLsbD_and, BitVec.getLsbD_cast, BitVec.getLsbD_append]
  interval_cases i <;> simp

theorem encodeShift_masked (op : BitVec 11) : encodeR op 0#5 sh rn rd &&& 0xFFFF0000#32 = op.setWidth 32 <<< 21 := by
  apply BitVec.eq_of_getLsbD_eq
  intro i hi
  simp only [encodeR, BitVec.getLsbD_setWidth, BitVec.getLsbD_shiftLeft, BitVec.getLsbD_and, BitVec.getLsbD_cast, BitVec.getLsbD_append]
  interval_cases i <;> simp

theorem encodeI_masked (op : BitVec 10) : encodeI op imm rn rd &&& 0xFFC00000#32 = op.setWidth 32 <<< 22 := by
  apply BitVec.eq_of_getLsbD_eq
  intro i hi
  simp only [encodeI, BitVec.getLsbD_setWidth, BitVec.getLsbD_shiftLeft, BitVec.getLsbD_and, BitVec.getLsbD_cast, BitVec.getLsbD_append]
  interval_cases i <;> simp

theorem encodeD_masked (op : BitVec 11) : encodeD op imm rn rd &&& 0xFFE00C00#32 = op.setWidth 32 <<< 21 := by
  apply BitVec.eq_of_getLsbD_eq
  intro i hi
  simp only [encodeD, BitVec.getLsbD_setWidth, BitVec.getLsbD_shiftLeft, BitVec.getLsbD_and, BitVec.getLsbD_cast, BitVec.getLsbD_append]
  interval_cases i <;> simp

theorem encodeB_masked (op : BitVec 6) : encodeB op off &&& 0xFC000000#32 = op.setWidth 32 <<< 26 := by
  apply BitVec.eq_of_getLsbD_eq
  intro i hi
  simp only [encodeB, BitVec.getLsbD_setWidth, BitVec.getLsbD_shiftLeft, BitVec.getLsbD_and, BitVec.getLsbD_cast, BitVec.getLsbD_append]
  interval_cases i <;> simp

theorem encodeCB_masked (op : BitVec 8) : encodeCB op off rd &&& 0xFF000000#32 = op.setWidth 32 <<< 24 := by
  apply BitVec.eq_of_getLsbD_eq
  intro i hi
  simp only [encodeCB, BitVec.getLsbD_setWidth, BitVec.getLsbD_shiftLeft, BitVec.getLsbD_and, BitVec.getLsbD_cast, BitVec.getLsbD_append]
  interval_cases i <;> simp

theorem encodeCond_masked (op : BitVec 8) (c : BitVec 5) : encodeCB op off c &&& 0xFF00001F#32 = op.setWidth 32 <<< 24 ||| c.setWidth 32 := by
  apply BitVec.eq_of_getLsbD_eq
  intro i hi
  simp only [encodeCB, BitVec.getLsbD_setWidth, BitVec.getLsbD_shiftLeft, BitVec.getLsbD_or, BitVec.getLsbD_and, BitVec.getLsbD_cast, BitVec.getLsbD_append]
  interval_cases i <;> simp

end

/-- A value in the range of an `n`-bit signed field survives truncation to the field and sign extension (30_encoding.md
R90 to R93). -/
theorem signExtend_of_fits {n : Nat} (hn : 0 < n) (hle : n ≤ 64) {v : Word} (h : fitsSigned n v = true) :
    (v.setWidth n).signExtend 64 = v := by
  simp only [fitsSigned, Bool.and_eq_true, decide_eq_true_eq] at h
  apply BitVec.eq_of_toInt_eq
  have hp : (2 : Int) ^ n = 2 * 2 ^ (n - 1) := by
    obtain ⟨m, rfl⟩ : ∃ m, n = m + 1 := ⟨n - 1, by omega⟩
    simp [pow_succ]; ring
  have hd : (2 ^ n : Nat) ∣ 2 ^ 64 := Nat.pow_dvd_pow 2 hle
  have hv : (v.toInt).bmod (2 ^ n) = v.toInt := Int.bmod_eq_of_le_mul_two (by push_cast; omega) (by push_cast; omega)
  rw [BitVec.toInt_signExtend_of_le hle, BitVec.toInt_setWidth, ← Int.bmod_bmod_of_dvd hd, ← BitVec.toInt_eq_toNat_bmod,
    hv]

end Sys2Proof
end

