-- ==== Sys2Proof/Laws/State.lean ====
section
/-!
SUPPORT. One lemma per field of `State` per update (`commit`, `raiseFault`, `applyReset`, `withFetchWord`), so that no
later proof unfolds a record update.
-/

namespace Sys2Proof.Machine

variable (s : State) (e : Effects) (k : FaultKind) (info : Word) (init : InitValues) (nbits w : Nat)

@[simp] theorem commit_regs : (commit s e).regs = commitRegs s.cfg.xzrHardwired s.regs e.wreg := rfl
@[simp] theorem commit_flags : (commit s e).flags = s.flags.write e.wflag := rfl
@[simp] theorem commit_pc : (commit s e).pc = nextPc s.pc e.pcSrc e.target := rfl
@[simp] theorem commit_mem : (commit s e).mem = commitMem s.mem e.wmem := rfl
@[simp] theorem commit_fault : (commit s e).fault = s.fault := rfl
@[simp] theorem commit_program : (commit s e).program = s.program := rfl
@[simp] theorem commit_cfg : (commit s e).cfg = s.cfg := rfl

@[simp] theorem raiseFault_regs : (raiseFault k info s).regs = s.regs := rfl
@[simp] theorem raiseFault_flags : (raiseFault k info s).flags = s.flags := rfl
@[simp] theorem raiseFault_pc : (raiseFault k info s).pc = s.pc := rfl
@[simp] theorem raiseFault_mem : (raiseFault k info s).mem = s.mem := rfl
@[simp] theorem raiseFault_fault : (raiseFault k info s).fault = ⟨true, k.code, s.pc, info⟩ := rfl
@[simp] theorem raiseFault_program : (raiseFault k info s).program = s.program := rfl
@[simp] theorem raiseFault_cfg : (raiseFault k info s).cfg = s.cfg := rfl

@[simp] theorem applyReset_regs :
    (applyReset init s).regs = if s.cfg.xzrHardwired then init.regs.set 31 0#64 else init.regs := rfl
@[simp] theorem applyReset_flags : (applyReset init s).flags = init.flags := rfl
@[simp] theorem applyReset_pc : (applyReset init s).pc = Config.entryPc := rfl
@[simp] theorem applyReset_mem : (applyReset init s).mem = init.mem := rfl
@[simp] theorem applyReset_fault : (applyReset init s).fault = FaultStatus.clear := rfl
@[simp] theorem applyReset_program : (applyReset init s).program = s.program := rfl
@[simp] theorem applyReset_cfg : (applyReset init s).cfg = s.cfg := rfl

@[simp] theorem withFetchWord_regs : (s.withFetchWord nbits w).regs = s.regs := rfl
@[simp] theorem withFetchWord_flags : (s.withFetchWord nbits w).flags = s.flags := rfl
@[simp] theorem withFetchWord_pc : (s.withFetchWord nbits w).pc = s.pc := rfl
@[simp] theorem withFetchWord_mem : (s.withFetchWord nbits w).mem = s.mem := rfl
@[simp] theorem withFetchWord_fault : (s.withFetchWord nbits w).fault =
    if s.fault.faulted then FaultStatus.clear else s.fault := rfl
@[simp] theorem withFetchWord_program : (s.withFetchWord nbits w).program =
    placeWord s.program s.pc.toNat (BitVec.ofNat 32 (w % 2 ^ nbits)) := rfl
@[simp] theorem withFetchWord_cfg : (s.withFetchWord nbits w).cfg = s.cfg := rfl

/-- The reads of the driver's view that a fault leaves as they were. -/
@[simp] theorem raiseFault_x (r : Reg) : (raiseFault k info s).x r = s.x r := rfl
@[simp] theorem raiseFault_byteAt (a : Nat) : (raiseFault k info s).byteAt a = s.byteAt a := rfl

/-- The flag register's write port, with all enables off and all on. -/
@[simp] theorem flags_write_none (f : Flags) : f.write FlagWrite.none = f := rfl
@[simp] theorem flags_write_all (f g : Flags) : f.write (FlagWrite.all g) = g := rfl

@[simp] theorem nextPc_driverDefault (pc target : Word) : nextPc pc .driverDefault target = pc + 1#64 := rfl
@[simp] theorem nextPc_instrDefault (pc target : Word) : nextPc pc .instrDefault target = pc + 1#64 := rfl
@[simp] theorem nextPc_instrTarget (pc target : Word) : nextPc pc .instrTarget target = target := rfl

@[simp] theorem commitRegs_none (h : Bool) (regs : Vector Word 32) : commitRegs h regs none = regs := rfl
@[simp] theorem commitRegs_some (h : Bool) (regs : Vector Word 32) (wa : Reg) (wd : Word) :
    commitRegs h regs (some (wa, wd)) = writePort h regs wa wd := rfl
@[simp] theorem commitMem_none (m : Memory) : commitMem m none = m := rfl
@[simp] theorem commitMem_some (m : Memory) (q : MemStore) :
    commitMem m (some q) = memWrite m q.addr.toNat q.n q.value := rfl

@[simp] theorem settle_ok : settle s (.ok e) = .next (commit s e) := rfl
@[simp] theorem settle_error : settle s (.error (k, info)) = .next (raiseFault k info s) := rfl

end Sys2Proof.Machine
end

