-- ==== Sys2Proof/Laws/Memory.lean ====
section
/-!
SUPPORT. Data memory: a read after a write (spec/20_memory.md R53 to R55), and that every operation keeps the canonical
form and the modelled range.
-/

namespace Sys2Proof.Machine

theorem mem_cell {a : Nat} {v : Byte} {p : Host.Cell} : p ∈ Memory.cell a v ↔ v ≠ Memory.fill ∧ p = (a, v) := by
  unfold Memory.cell; split <;> simp_all

/-- Every entry after a write is the written byte or was there before. -/
theorem mem_write {m : Memory} {a : Nat} {v : Byte} {p : Host.Cell} (h : p ∈ m.write a v) :
    (p = (a, v) ∧ v ≠ Memory.fill) ∨ p ∈ m := by
  induction m with
  | nil => exact .inl ((mem_cell.mp h).symm)
  | cons q rest ih =>
    obtain ⟨a', v'⟩ := q
    simp only [Memory.write] at h
    split at h
    · rcases List.mem_append.mp h with h | h
      · exact .inl ((mem_cell.mp h).symm)
      · exact .inr h
    · split at h
      · rcases List.mem_append.mp h with h | h
        · exact .inl ((mem_cell.mp h).symm)
        · exact .inr (List.mem_cons_of_mem _ h)
      · rcases List.mem_cons.mp h with h | h
        · exact .inr (h ▸ List.mem_cons_self)
        · exact (ih h).imp id (List.mem_cons_of_mem _)

theorem pairwise_cell_append {a : Nat} {v : Byte} {m : Memory} (hm : List.Pairwise (fun p q => p.1 < q.1) m)
    (h : ∀ p ∈ m, a < p.1) : List.Pairwise (fun p q : Host.Cell => p.1 < q.1) (Memory.cell a v ++ m) := by
  unfold Memory.cell; split
  · simpa using hm
  · simpa using ⟨fun x b hx => h _ hx, hm⟩

/-- A byte write keeps the canonical form. -/
theorem write_wf {m : Memory} (h : m.wf) (a : Nat) (v : Byte) : (m.write a v).wf := by
  refine ⟨?_, ?_⟩
  · have hs := h.1
    clear h
    induction m with
    | nil => simpa [Memory.write] using pairwise_cell_append (a := a) (v := v) List.Pairwise.nil (by simp)
    | cons q rest ih =>
      obtain ⟨a', v'⟩ := q
      have hrest := (List.pairwise_cons.mp hs).2
      have hhead := (List.pairwise_cons.mp hs).1
      simp only [Memory.write]
      split
      · rename_i hlt
        refine pairwise_cell_append hs fun p hp => ?_
        rcases List.mem_cons.mp hp with rfl | hp
        · exact hlt
        · exact lt_trans hlt (hhead p hp)
      · split
        · rename_i heq
          exact pairwise_cell_append hrest fun p hp => heq ▸ hhead p hp
        · refine List.pairwise_cons.mpr ⟨fun p hp => ?_, ih hrest⟩
          rcases mem_write hp with ⟨rfl, -⟩ | hp
          · show a' < a
            omega
          · exact hhead p hp
  · intro p hp
    rcases mem_write hp with ⟨rfl, hv⟩ | hp
    · exact hv
    · exact h.2 p hp

theorem memWrite_wf {m : Memory} (h : m.wf) (ea n : Nat) (v : Word) : (memWrite m ea n v).wf := by
  induction n with
  | zero => exact h
  | succ n ih => exact write_wf ih _ _

/-- A write inside the range keeps the memory inside the range (20_memory.md R51). -/
theorem memWrite_inRange {cfg : Config} {m : Memory} (h : memInRange cfg m) (ea n : Nat) (v : Word)
    (hr : Config.memBase ≤ ea ∧ ea + n ≤ Config.memBase + cfg.memSize) : memInRange cfg (memWrite m ea n v) := by
  induction n with
  | zero => exact h
  | succ n ih =>
    intro p hp
    rcases mem_write hp with ⟨rfl, -⟩ | hp
    · exact ⟨by simp only; omega, by simp only; omega⟩
    · exact ih ⟨hr.1, by omega⟩ p hp

theorem read_cell_append_ne {m : Memory} {a b : Nat} {v : Byte} (h : b ≠ a) :
    Memory.read (Memory.cell a v ++ m) b = m.read b := by
  unfold Memory.cell; split <;> simp [Memory.read, h]

/-- A byte write leaves every other byte as it was (20_memory.md R54). -/
theorem read_write_ne (m : Memory) {a b : Nat} (v : Byte) (h : b ≠ a) : (m.write a v).read b = m.read b := by
  induction m with
  | nil => simpa [Memory.write] using read_cell_append_ne (m := []) (v := v) h
  | cons q rest ih =>
    obtain ⟨a', v'⟩ := q
    simp only [Memory.write]
    split
    · exact read_cell_append_ne h
    · split
      · rename_i heq
        rw [read_cell_append_ne h]
        simp [Memory.read, heq ▸ h]
      · simp [Memory.read, ih]

/-- An address below every listed one reads as an unlisted address. -/
theorem read_unlisted {m : Memory} {a : Nat} (h : ∀ p ∈ m, p.1 ≠ a) : m.read a = Memory.fill := by
  induction m with
  | nil => rfl
  | cons q rest ih =>
    have hq : a ≠ q.1 := (h q List.mem_cons_self).symm
    simp [Memory.read, hq, ih fun p hp => h p (List.mem_cons_of_mem _ hp)]

theorem read_cell_append_self {m : Memory} {a : Nat} {v : Byte} (h : ∀ p ∈ m, p.1 ≠ a) :
    Memory.read (Memory.cell a v ++ m) a = v := by
  unfold Memory.cell; split
  · rename_i hv
    simpa [hv] using read_unlisted h
  · simp [Memory.read]

/-- A byte write stores its value (20_memory.md R54). -/
theorem read_write_self {m : Memory} (h : m.wf) (a : Nat) (v : Byte) : (m.write a v).read a = v := by
  have hs := h.1
  clear h
  induction m with
  | nil => simpa [Memory.write] using read_cell_append_self (m := []) (a := a) (v := v) (by simp)
  | cons q rest ih =>
    obtain ⟨a', v'⟩ := q
    have hrest := (List.pairwise_cons.mp hs).2
    have hhead := (List.pairwise_cons.mp hs).1
    simp only [Memory.write]
    split
    · rename_i hlt
      refine read_cell_append_self fun p hp => ?_
      rcases List.mem_cons.mp hp with rfl | hp
      · exact (Nat.ne_of_gt hlt)
      · exact Nat.ne_of_gt (lt_trans hlt (hhead p hp))
    · split
      · rename_i heq
        subst heq
        exact read_cell_append_self fun p hp => Nat.ne_of_gt (hhead p hp)
      · rename_i hne
        simpa [Memory.read, hne] using ih hrest

/-- Bytes outside `ea .. ea+n-1` are unchanged by a multi-byte write (20_memory.md R54). -/
theorem memWrite_read_outside (m : Memory) (ea n : Nat) (v : Word) {a : Nat} (h : a < ea ∨ ea + n ≤ a) :
    (memWrite m ea n v).read a = m.read a := by
  induction n with
  | zero => rfl
  | succ n ih =>
    rw [memWrite, read_write_ne _ _ (by omega), ih (by omega)]

/-- Byte `i` of a multi-byte write holds `v[8i+7 : 8i]` (20_memory.md R54). -/
theorem memWrite_read_inside {m : Memory} (h : m.wf) (ea n : Nat) (v : Word) {i : Nat} (hi : i < n) :
    (memWrite m ea n v).read (ea + i) = v.extractLsb' (8 * i) 8 := by
  induction n with
  | zero => omega
  | succ n ih =>
    by_cases hin : i = n
    · subst hin
      exact read_write_self (memWrite_wf h ea i v) _ _
    · rw [memWrite, read_write_ne _ _ (by omega), ih (by omega)]

/-- Bit `k` of a little-endian read is bit `k % 8` of byte `k / 8` (20_memory.md R53). -/
theorem memRead_getLsbD (m : Memory) (ea n k : Nat) (hk : k < 8 * n) :
    (memRead m ea n).getLsbD k = (m.read (ea + k / 8)).getLsbD (k % 8) := by
  induction n with
  | zero => omega
  | succ n ih =>
    simp only [memRead, BitVec.getLsbD_cast, BitVec.getLsbD_append]
    by_cases hlt : k < 8 * n
    · simpa [hlt] using ih hlt
    · have h1 : k / 8 = n := by omega
      have h2 : k - 8 * n = k % 8 := by omega
      simp [hlt, h1, h2]

/-- `MemRead(ea, n)[8i+7 : 8i] = mem[ea+i]` (20_memory.md R53). -/
theorem memRead_byte (m : Memory) (ea n i : Nat) (hi : i < n) :
    (memRead m ea n).extractLsb' (8 * i) 8 = m.read (ea + i) := by
  apply BitVec.eq_of_getLsbD_eq
  intro j hj
  have h1 : (8 * i + j) / 8 = i := by omega
  have h2 : (8 * i + j) % 8 = j := by omega
  rw [BitVec.getLsbD_extractLsb', memRead_getLsbD m ea n (8 * i + j) (by omega), h1, h2]
  simp [hj]

end Sys2Proof.Machine
end

