-- ==== Sys2Proof/Laws/PerInstr.lean ====
section
/-!
SUPPORT. The family of LAWS.json, one lemma per constructor of `Instr`: the encoded word of an instruction matches the
instruction's own row of the opcode map (spec/30_encoding.md R96), whatever its operands and the PC.
-/

namespace Sys2Proof.Laws

/-- The word encoded for `i` is one that `i`'s row of the opcode map accepts. -/
def EncodeMatchesRow.Statement (i : Instr) : Prop := ∀ pc : Word, i.op.accepts (encode pc i) = true

theorem EncodeMatchesRow.add (rd rn rm : Reg) : EncodeMatchesRow.Statement (.add rd rn rm) :=
  fun _ => (accepts_iff _ _).mpr (encodeR_masked ..)

theorem EncodeMatchesRow.adds (rd rn rm : Reg) : EncodeMatchesRow.Statement (.adds rd rn rm) :=
  fun _ => (accepts_iff _ _).mpr (encodeR_masked ..)

theorem EncodeMatchesRow.sub (rd rn rm : Reg) : EncodeMatchesRow.Statement (.sub rd rn rm) :=
  fun _ => (accepts_iff _ _).mpr (encodeR_masked ..)

theorem EncodeMatchesRow.subs (rd rn rm : Reg) : EncodeMatchesRow.Statement (.subs rd rn rm) :=
  fun _ => (accepts_iff _ _).mpr (encodeR_masked ..)

theorem EncodeMatchesRow.and (rd rn rm : Reg) : EncodeMatchesRow.Statement (.and rd rn rm) :=
  fun _ => (accepts_iff _ _).mpr (encodeR_masked ..)

theorem EncodeMatchesRow.ands (rd rn rm : Reg) : EncodeMatchesRow.Statement (.ands rd rn rm) :=
  fun _ => (accepts_iff _ _).mpr (encodeR_masked ..)

theorem EncodeMatchesRow.orr (rd rn rm : Reg) : EncodeMatchesRow.Statement (.orr rd rn rm) :=
  fun _ => (accepts_iff _ _).mpr (encodeR_masked ..)

theorem EncodeMatchesRow.eor (rd rn rm : Reg) : EncodeMatchesRow.Statement (.eor rd rn rm) :=
  fun _ => (accepts_iff _ _).mpr (encodeR_masked ..)

theorem EncodeMatchesRow.lsl (rd rn : Reg) (sh : BitVec 6) : EncodeMatchesRow.Statement (.lsl rd rn sh) :=
  fun _ => (accepts_iff _ _).mpr (encodeShift_masked ..)

theorem EncodeMatchesRow.lsr (rd rn : Reg) (sh : BitVec 6) : EncodeMatchesRow.Statement (.lsr rd rn sh) :=
  fun _ => (accepts_iff _ _).mpr (encodeShift_masked ..)

theorem EncodeMatchesRow.addi (rd rn : Reg) (imm : Word) : EncodeMatchesRow.Statement (.addi rd rn imm) :=
  fun _ => (accepts_iff _ _).mpr (encodeI_masked ..)

theorem EncodeMatchesRow.addis (rd rn : Reg) (imm : Word) : EncodeMatchesRow.Statement (.addis rd rn imm) :=
  fun _ => (accepts_iff _ _).mpr (encodeI_masked ..)

theorem EncodeMatchesRow.subi (rd rn : Reg) (imm : Word) : EncodeMatchesRow.Statement (.subi rd rn imm) :=
  fun _ => (accepts_iff _ _).mpr (encodeI_masked ..)

theorem EncodeMatchesRow.subis (rd rn : Reg) (imm : Word) : EncodeMatchesRow.Statement (.subis rd rn imm) :=
  fun _ => (accepts_iff _ _).mpr (encodeI_masked ..)

theorem EncodeMatchesRow.andi (rd rn : Reg) (imm : Word) : EncodeMatchesRow.Statement (.andi rd rn imm) :=
  fun _ => (accepts_iff _ _).mpr (encodeI_masked ..)

theorem EncodeMatchesRow.andis (rd rn : Reg) (imm : Word) : EncodeMatchesRow.Statement (.andis rd rn imm) :=
  fun _ => (accepts_iff _ _).mpr (encodeI_masked ..)

theorem EncodeMatchesRow.orri (rd rn : Reg) (imm : Word) : EncodeMatchesRow.Statement (.orri rd rn imm) :=
  fun _ => (accepts_iff _ _).mpr (encodeI_masked ..)

theorem EncodeMatchesRow.eori (rd rn : Reg) (imm : Word) : EncodeMatchesRow.Statement (.eori rd rn imm) :=
  fun _ => (accepts_iff _ _).mpr (encodeI_masked ..)

theorem EncodeMatchesRow.b (target : Word) : EncodeMatchesRow.Statement (.b target) :=
  fun _ => (accepts_iff _ _).mpr (encodeB_masked ..)

theorem EncodeMatchesRow.bEq (target : Word) : EncodeMatchesRow.Statement (.bEq target) :=
  fun _ => (accepts_iff _ _).mpr (encodeCond_masked ..)

theorem EncodeMatchesRow.bNe (target : Word) : EncodeMatchesRow.Statement (.bNe target) :=
  fun _ => (accepts_iff _ _).mpr (encodeCond_masked ..)

theorem EncodeMatchesRow.bLt (target : Word) : EncodeMatchesRow.Statement (.bLt target) :=
  fun _ => (accepts_iff _ _).mpr (encodeCond_masked ..)

theorem EncodeMatchesRow.bLe (target : Word) : EncodeMatchesRow.Statement (.bLe target) :=
  fun _ => (accepts_iff _ _).mpr (encodeCond_masked ..)

theorem EncodeMatchesRow.bGt (target : Word) : EncodeMatchesRow.Statement (.bGt target) :=
  fun _ => (accepts_iff _ _).mpr (encodeCond_masked ..)

theorem EncodeMatchesRow.bGe (target : Word) : EncodeMatchesRow.Statement (.bGe target) :=
  fun _ => (accepts_iff _ _).mpr (encodeCond_masked ..)

theorem EncodeMatchesRow.bMi (target : Word) : EncodeMatchesRow.Statement (.bMi target) :=
  fun _ => (accepts_iff _ _).mpr (encodeCond_masked ..)

theorem EncodeMatchesRow.bPl (target : Word) : EncodeMatchesRow.Statement (.bPl target) :=
  fun _ => (accepts_iff _ _).mpr (encodeCond_masked ..)

theorem EncodeMatchesRow.bVs (target : Word) : EncodeMatchesRow.Statement (.bVs target) :=
  fun _ => (accepts_iff _ _).mpr (encodeCond_masked ..)

theorem EncodeMatchesRow.bVc (target : Word) : EncodeMatchesRow.Statement (.bVc target) :=
  fun _ => (accepts_iff _ _).mpr (encodeCond_masked ..)

theorem EncodeMatchesRow.cbnz (rt : Reg) (target : Word) : EncodeMatchesRow.Statement (.cbnz rt target) :=
  fun _ => (accepts_iff _ _).mpr (encodeCB_masked ..)

theorem EncodeMatchesRow.ldur (rt rn : Reg) (imm : Word) : EncodeMatchesRow.Statement (.ldur rt rn imm) :=
  fun _ => (accepts_iff _ _).mpr (encodeD_masked ..)

theorem EncodeMatchesRow.stur (rt rn : Reg) (imm : Word) : EncodeMatchesRow.Statement (.stur rt rn imm) :=
  fun _ => (accepts_iff _ _).mpr (encodeD_masked ..)

theorem EncodeMatchesRow.ldurb (rt rn : Reg) (imm : Word) : EncodeMatchesRow.Statement (.ldurb rt rn imm) :=
  fun _ => (accepts_iff _ _).mpr (encodeD_masked ..)

theorem EncodeMatchesRow.sturb (rt rn : Reg) (imm : Word) : EncodeMatchesRow.Statement (.sturb rt rn imm) :=
  fun _ => (accepts_iff _ _).mpr (encodeD_masked ..)

theorem EncodeMatchesRow.ldurh (rt rn : Reg) (imm : Word) : EncodeMatchesRow.Statement (.ldurh rt rn imm) :=
  fun _ => (accepts_iff _ _).mpr (encodeD_masked ..)

theorem EncodeMatchesRow.sturh (rt rn : Reg) (imm : Word) : EncodeMatchesRow.Statement (.sturh rt rn imm) :=
  fun _ => (accepts_iff _ _).mpr (encodeD_masked ..)

theorem EncodeMatchesRow.ldursw (rt rn : Reg) (imm : Word) : EncodeMatchesRow.Statement (.ldursw rt rn imm) :=
  fun _ => (accepts_iff _ _).mpr (encodeD_masked ..)

theorem EncodeMatchesRow.sturw (rt rn : Reg) (imm : Word) : EncodeMatchesRow.Statement (.sturw rt rn imm) :=
  fun _ => (accepts_iff _ _).mpr (encodeD_masked ..)

/-- The family's statement for every instruction. -/
theorem encode_matches_row (i : Instr) : EncodeMatchesRow.Statement i := by
  cases i with
  | add rd rn rm => exact EncodeMatchesRow.add rd rn rm
  | adds rd rn rm => exact EncodeMatchesRow.adds rd rn rm
  | sub rd rn rm => exact EncodeMatchesRow.sub rd rn rm
  | subs rd rn rm => exact EncodeMatchesRow.subs rd rn rm
  | and rd rn rm => exact EncodeMatchesRow.and rd rn rm
  | ands rd rn rm => exact EncodeMatchesRow.ands rd rn rm
  | orr rd rn rm => exact EncodeMatchesRow.orr rd rn rm
  | eor rd rn rm => exact EncodeMatchesRow.eor rd rn rm
  | lsl rd rn sh => exact EncodeMatchesRow.lsl rd rn sh
  | lsr rd rn sh => exact EncodeMatchesRow.lsr rd rn sh
  | addi rd rn imm => exact EncodeMatchesRow.addi rd rn imm
  | addis rd rn imm => exact EncodeMatchesRow.addis rd rn imm
  | subi rd rn imm => exact EncodeMatchesRow.subi rd rn imm
  | subis rd rn imm => exact EncodeMatchesRow.subis rd rn imm
  | andi rd rn imm => exact EncodeMatchesRow.andi rd rn imm
  | andis rd rn imm => exact EncodeMatchesRow.andis rd rn imm
  | orri rd rn imm => exact EncodeMatchesRow.orri rd rn imm
  | eori rd rn imm => exact EncodeMatchesRow.eori rd rn imm
  | b target => exact EncodeMatchesRow.b target
  | bEq target => exact EncodeMatchesRow.bEq target
  | bNe target => exact EncodeMatchesRow.bNe target
  | bLt target => exact EncodeMatchesRow.bLt target
  | bLe target => exact EncodeMatchesRow.bLe target
  | bGt target => exact EncodeMatchesRow.bGt target
  | bGe target => exact EncodeMatchesRow.bGe target
  | bMi target => exact EncodeMatchesRow.bMi target
  | bPl target => exact EncodeMatchesRow.bPl target
  | bVs target => exact EncodeMatchesRow.bVs target
  | bVc target => exact EncodeMatchesRow.bVc target
  | cbnz rt target => exact EncodeMatchesRow.cbnz rt target
  | ldur rt rn imm => exact EncodeMatchesRow.ldur rt rn imm
  | stur rt rn imm => exact EncodeMatchesRow.stur rt rn imm
  | ldurb rt rn imm => exact EncodeMatchesRow.ldurb rt rn imm
  | sturb rt rn imm => exact EncodeMatchesRow.sturb rt rn imm
  | ldurh rt rn imm => exact EncodeMatchesRow.ldurh rt rn imm
  | sturh rt rn imm => exact EncodeMatchesRow.sturh rt rn imm
  | ldursw rt rn imm => exact EncodeMatchesRow.ldursw rt rn imm
  | sturw rt rn imm => exact EncodeMatchesRow.sturw rt rn imm

end Sys2Proof.Laws
end

