-- ==== Sys2Proof/Laws/Registers.lean ====
section
/-!
SUPPORT. The register file: what a read sees after a write (spec/10_state.md R22, R23).
-/

namespace Sys2Proof.Machine

/-- A read after a write: register 31 reads 0 when hardwired, the written register its value, every other register what
it read before. -/
theorem readPort_writePort (h : Bool) (regs : Vector Word 32) (wa ra : Reg) (wd : Word) :
    readPort h (writePort h regs wa wd) ra =
      if h = true ∧ ra = 31#5 then 0#64 else if ra = wa then wd else readPort h regs ra := by
  by_cases hx : h = true ∧ ra = 31#5
  · simp [readPort, hx]
  by_cases hw : h = true ∧ wa = 31#5
  · have hne : ra ≠ wa := fun e => hx ⟨hw.1, e.trans hw.2⟩
    have hne' : ra ≠ 31#5 := fun e => hx ⟨hw.1, e⟩
    simp [readPort, writePort, hw, hne']
  · by_cases hr : ra = wa
    · subst hr
      simp [readPort, writePort, hx]
    · have hn : wa.toNat ≠ ra.toNat := fun e => hr (BitVec.eq_of_toNat_eq e.symm)
      simp [readPort, writePort, hx, hw, hr, hn]

/-- The visible register after a commit that writes `wd` to `wa`. -/
theorem commit_x_some (s : State) (e : Effects) (wa r : Reg) (wd : Word) (he : e.wreg = some (wa, wd)) :
    (commit s e).x r =
      if r = wa ∧ ¬(s.cfg.xzrHardwired = true ∧ wa = 31#5) then wd else s.x r := by
  simp only [State.x, commit_cfg, commit_regs, he, commitRegs_some, readPort_writePort]
  by_cases hz : s.cfg.xzrHardwired = true ∧ r = 31#5
  · have : ¬(r = wa ∧ ¬(s.cfg.xzrHardwired = true ∧ wa = 31#5)) := fun e => e.2 (e.1 ▸ hz)
    rw [if_pos hz, if_neg this]
    simp [readPort, hz]
  · by_cases hr : r = wa
    · subst hr
      simp [hz]
    · simp [hz, hr]

/-- The visible registers after a commit that writes none. -/
theorem commit_x_none (s : State) (e : Effects) (r : Reg) (he : e.wreg = none) : (commit s e).x r = s.x r := by
  simp [State.x, he]

/-- A hardwired register 31 reads 0 in every state (10_state.md R22). -/
theorem x_zero_of_hardwired (s : State) (h : s.cfg.xzrHardwired = true) : s.x 31#5 = 0#64 := by
  simp [State.x, readPort, h]

/-- The write port keeps the stored word of a hardwired register 31 (log 13). -/
theorem writePort_get31 (regs : Vector Word 32) (wa : Reg) (wd : Word) :
    (writePort true regs wa wd)[31] = regs[31] := by
  by_cases hw : wa = 31#5
  · simp [writePort, hw]
  · have hn : wa.toNat ≠ 31 := fun e => hw (BitVec.eq_of_toNat_eq e)
    simp [writePort, hw, hn]

end Sys2Proof.Machine
end

