-- ==== Sys2Proof/Laws/Step.lean ====
section
/-!
SUPPORT. What each shared step, an instruction and a step of the block can do, said once (inversion lemmas).
-/

namespace Sys2Proof.Machine

/-- An ALU instruction commits its effects (spec/40_arithmetic.md R120). -/
theorem aluStep_eq (op : AluOp) (mode : FlagMode) (rd rn : Reg) (b : SecondOperand) (sh : BitVec 6) (s : State) :
    aluStep op mode rd rn b sh s = .next (commit s (aluEffects op mode rd rn b sh s)) := rfl

/-- A conditional branch commits its effects (42_branch.md R203). -/
theorem condBranchStep_eq (c : Cond) (target : Word) (s : State) :
    condBranchStep c target s = .next (commit s (condBranchEffects c target s)) := rfl

/-- The PC after a conditional branch. -/
theorem condBranch_pc (c : Cond) (target : Word) (s : State) :
    (commit s (condBranchEffects c target s)).pc = if c.holds s.flags then target else s.pc + 1#64 := by
  unfold condBranchEffects; split <;> simp_all

/-- A load either faults with the check's kind or commits the loaded value (44_data_transfer.md R231). -/
theorem loadStep_eq (size : LsSize) (sext : Bool) (rt rn : Reg) (imm : Word) (s : State) :
    loadStep size sext rt rn imm s =
      match lsCheck s.cfg (effectiveAddress s rn imm) size with
      | some k => .next (raiseFault k (effectiveAddress s rn imm) s)
      | none => .next (commit s { wreg := some (rt, lsLoad s.mem (effectiveAddress s rn imm) size sext) }) := by
  unfold loadStep loadAttempt; cases lsCheck s.cfg (effectiveAddress s rn imm) size <;> rfl

/-- A store either faults with the check's kind or commits its bytes (44_data_transfer.md R231). -/
theorem storeStep_eq (size : LsSize) (rt rn : Reg) (imm : Word) (s : State) :
    storeStep size rt rn imm s =
      match lsCheck s.cfg (effectiveAddress s rn imm) size with
      | some k => .next (raiseFault k (effectiveAddress s rn imm) s)
      | none => .next (commit s { wmem := some (lsStore (effectiveAddress s rn imm) size (s.x rt)) }) := by
  unfold storeStep storeAttempt; cases lsCheck s.cfg (effectiveAddress s rn imm) size <;> rfl

/-- The LSU check passes exactly when the access is in range and not refused for alignment (20_memory.md R62). -/
theorem lsCheck_eq_none {cfg : Config} {ea : Word} {size : LsSize} :
    lsCheck cfg ea size = none ↔ inRange cfg ea size.bytes = true ∧ misaligned cfg ea size.bytes = false := by
  unfold lsCheck
  by_cases h1 : inRange cfg ea size.bytes = false
  · simp [h1]
  · by_cases h2 : misaligned cfg ea size.bytes = true
    · simp [h1, h2]
    · simp_all

/-- The kinds the LSU check can report; misalignment only where alignment is checked (60_exceptions.md R274, R276). -/
theorem lsCheck_eq_some {cfg : Config} {ea : Word} {size : LsSize} {k : FaultKind} (h : lsCheck cfg ea size = some k) :
    (k = .addressOutOfRange ∧ inRange cfg ea size.bytes = false) ∨
    (k = .addressMisaligned ∧ inRange cfg ea size.bytes = true ∧ misaligned cfg ea size.bytes = true) := by
  unfold lsCheck at h
  by_cases h1 : inRange cfg ea size.bytes = false
  · simp_all
  · by_cases h2 : misaligned cfg ea size.bytes = true
    · simp_all
    · simp_all

theorem inRange_iff {cfg : Config} {ea : Word} {n : Nat} :
    inRange cfg ea n = true ↔ Config.memBase ≤ ea.toNat ∧ ea.toNat + n ≤ Config.memBase + cfg.memSize := by
  simp [inRange]

theorem misaligned_iff {cfg : Config} {ea : Word} {n : Nat} :
    misaligned cfg ea n = true ↔ cfg.alignCheck = true ∧ ea.toNat % n ≠ 0 := by
  simp [misaligned]

/-- The effects store only inside the modelled range. -/
abbrev storesInRange (cfg : Config) (e : Effects) : Prop :=
  ∀ q, e.wmem = some q → Config.memBase ≤ q.addr.toNat ∧ q.addr.toNat + q.n ≤ Config.memBase + cfg.memSize

theorem storesInRange_of_none {cfg : Config} {e : Effects} (h : e.wmem = none) : storesInRange cfg e :=
  fun q hq => by rw [h] at hq; cases hq

theorem condBranchEffects_wmem (c : Cond) (target : Word) (s : State) : (condBranchEffects c target s).wmem = none := by
  unfold condBranchEffects; split <;> rfl

theorem cbnzEffects_wmem (rt : Reg) (target : Word) (s : State) : (cbnzEffects rt target s).wmem = none := by
  unfold cbnzEffects; split <;> rfl

/-- The outcomes of `exec` at `s`: a commit of effects, or a memory addressing fault. -/
def CommitsOrFaults (s : State) (o : Host.Outcome State Fault Refusal) : Prop :=
  (∃ e, o = .next (commit s e) ∧ storesInRange s.cfg e) ∨
  (∃ k ea, o = .next (raiseFault k ea s) ∧
    (k = .addressOutOfRange ∨ (k = .addressMisaligned ∧ s.cfg.alignCheck = true)))

theorem commits_of_no_store (s : State) (e : Effects) (h : e.wmem = none) : CommitsOrFaults s (.next (commit s e)) :=
  .inl ⟨e, rfl, storesInRange_of_none h⟩

theorem faults_of_check (s : State) {ea : Word} {size : LsSize} {k : FaultKind} (h : lsCheck s.cfg ea size = some k) :
    CommitsOrFaults s (.next (raiseFault k ea s)) :=
  .inr ⟨k, ea, rfl, (lsCheck_eq_some h).imp (·.1) fun h => ⟨h.1, (misaligned_iff.mp h.2.2).1⟩⟩

theorem loadStep_cases (size : LsSize) (sext : Bool) (rt rn : Reg) (imm : Word) (s : State) :
    CommitsOrFaults s (loadStep size sext rt rn imm s) := by
  rw [loadStep_eq]
  split
  · exact faults_of_check s ‹_›
  · exact commits_of_no_store s _ rfl

theorem storeStep_cases (size : LsSize) (rt rn : Reg) (imm : Word) (s : State) :
    CommitsOrFaults s (storeStep size rt rn imm s) := by
  rw [storeStep_eq]
  split
  · exact faults_of_check s ‹_›
  · rename_i h
    refine .inl ⟨_, rfl, ?_⟩
    rintro q ⟨⟩
    exact inRange_iff.mp (lsCheck_eq_none.mp h).1

/-- An instruction commits effects, or takes a memory addressing fault; it does nothing else (10_state.md R38, R275). -/
theorem exec_cases (i : Instr) (s : State) : CommitsOrFaults s (exec i s) := by
  cases i <;> first
    | exact loadStep_cases ..
    | exact storeStep_cases ..
    | exact commits_of_no_store s (aluEffects ..) rfl
    | exact commits_of_no_store s _ (condBranchEffects_wmem ..)
    | exact commits_of_no_store s _ (cbnzEffects_wmem ..)
    | exact commits_of_no_store s _ rfl

/-- A step with a next state: the fetched slot faults at decode, or its instruction executes (10_state.md R38). -/
theorem step_cases {s t : State} (h : step s = .next t) :
    s.fault.faulted = false ∧ ∃ slot, fetch s = some slot ∧
      ((∃ d, decodeSlot s.pc slot = .error d ∧
          t = raiseFault (decodeFaultEntry d).1 (decodeFaultEntry d).2 s) ∨
       (∃ i, decodeSlot s.pc slot = .ok i ∧ exec i s = .next t)) := by
  unfold step at h
  split at h
  · cases h
  · rename_i hf
    refine ⟨by simpa using hf, ?_⟩
    split at h
    · cases h
    · rename_i slot hslot
      refine ⟨slot, hslot, ?_⟩
      unfold runSlot at h
      split at h
      · rename_i d hd
        refine .inl ⟨d, hd, ?_⟩
        cases d <;> exact (Host.Outcome.next.inj h).symm
      · rename_i i hi
        exact .inr ⟨i, hi, h⟩

/-- The converse: a fetched slot that decodes runs its instruction. -/
theorem step_of_decode {s : State} {slot : Slot} {i : Instr} (hf : s.fault.faulted = false)
    (hs : fetch s = some slot) (hd : decodeSlot s.pc slot = .ok i) : step s = exec i s := by
  simp [step, hf, hs, runSlot, hd]

end Sys2Proof.Machine
end

