-- ==== Sys2Proof/Tests/Slice0.lean ====
section
/-!
SUPPORT. Small tests of one decode, one operation or one step each, with expected results from spec/95_test_vectors.md or
worked out by hand from the encoding tables and rules of spec/; and a witness for the hypotheses of every statement.
-/

open Sys2Proof Sys2Proof.Machine

/-! ## Helpers -/

/-- Registers that are 0 but for those listed. -/
def Tests.regs (l : List (Reg × Word)) : Vector Word 32 :=
  l.foldl (fun v p => v.set p.1.toNat p.2 p.1.isLt) (Vector.replicate 32 0#64)

/-- Flags written as in 95_test_vectors.md: `N Z C V`. -/
def Tests.nzcv (n z c v : Nat) : Flags := ⟨n == 1, z == 1, c == 1, v == 1⟩

/-- The conventions of 95_test_vectors.md (`MEM_SIZE = 0x1000`, decided parameters), with these registers and flags. -/
def Tests.start (l : List (Reg × Word)) (f : Flags) : State := { State.reset with regs := Tests.regs l, flags := f }

/-- The memory of 95_test_vectors.md section 4.1. -/
def Tests.memory : Memory :=
  [(0x100, 0x88#8), (0x101, 0x77#8), (0x102, 0x66#8), (0x103, 0x55#8), (0x104, 0x44#8), (0x105, 0x33#8), (0x106, 0x22#8),
   (0x107, 0x11#8), (0x108, 0xBE#8), (0x109, 0xBA#8), (0x10A, 0xFE#8), (0x10B, 0xCA#8)]

/-- The start state of 95_test_vectors.md section 4.1, with `ALIGN_CHECK` as given. -/
def Tests.data (l : List (Reg × Word)) (align : Bool) : State :=
  { Tests.start l (Tests.nzcv 0 0 0 0) with mem := Tests.memory, cfg := { Config.decided 0x1000 with alignCheck := align } }

/-- A state at `pc` with this program. -/
def Tests.at (pc : Word) (program : List Slot) : State := { State.reset with pc := pc, program := program }

/-- The next state of an outcome. -/
def Tests.next : Host.Outcome State Fault Refusal → Option State
  | .next t => some t
  | .fault _ => none
  | .refused _ => none

/-- Register `r` and the flags after one instruction. -/
def Tests.xf (i : Instr) (s : State) (r : Reg) : Option (Word × Flags) :=
  (Tests.next (exec i s)).map fun t => (t.x r, t.flags)

/-- Register `r` after one instruction, with the fault code of the record. -/
def Tests.xc (i : Instr) (s : State) (r : Reg) : Option (Word × BitVec 3) :=
  (Tests.next (exec i s)).map fun t => (t.x r, t.fault.code)

/-- The bytes from `a` after one instruction. -/
def Tests.bytes (i : Instr) (s : State) (a n : Nat) : Option (List Byte) :=
  (Tests.next (exec i s)).map fun t => (List.range n).map fun k => t.byteAt (a + k)

/-- The PC after one instruction. -/
def Tests.pc (i : Instr) (s : State) : Option Word := (Tests.next (exec i s)).map State.pc

/-- The fault record and the PC after one step. -/
def Tests.fault (s : State) : Option (FaultStatus × Word) := (Tests.next (step s)).map fun t => (t.fault, t.pc)

/-! ## Decoding: one word of every constructor, written out field by field from 30_encoding.md R84 to R96 -/

theorem test_decode_add : decodeWord 0#64 0b10001011000_00010_000000_00001_00011#32 = some (.add 3 1 2) := by decide
theorem test_decode_adds : decodeWord 0#64 0b10101011000_00000_000000_00001_00010#32 = some (.adds 2 1 0) := by decide
theorem test_decode_sub : decodeWord 0#64 0b11001011000_01000_000000_10000_11110#32 = some (.sub 30 16 8) := by decide
theorem test_decode_subs : decodeWord 0#64 0b11101011000_00010_000000_00001_11111#32 = some (.subs 31 1 2) := by decide
theorem test_decode_and : decodeWord 0#64 0b10001010000_00100_000000_00010_00001#32 = some (.and 1 2 4) := by decide
theorem test_decode_ands : decodeWord 0#64 0b11101010000_11111_000000_00001_00100#32 = some (.ands 4 1 31) := by decide
theorem test_decode_orr : decodeWord 0#64 0b10101010000_11111_000000_00100_00101#32 = some (.orr 5 4 31) := by decide
theorem test_decode_eor : decodeWord 0#64 0b11001010000_00001_000000_00011_00100#32 = some (.eor 4 3 1) := by decide
theorem test_decode_lsl : decodeWord 0#64 0b11010011011_00000_000100_00101_00101#32 = some (.lsl 5 5 4) := by decide
theorem test_decode_lsr : decodeWord 0#64 0b11010011010_00000_111111_00001_00000#32 = some (.lsr 0 1 63) := by decide
theorem test_decode_addi :
    decodeWord 0#64 0b1001000100_111111111111_00001_00001#32 = some (.addi 1 1 (-1#64)) := by decide
theorem test_decode_addis :
    decodeWord 0#64 0b1011000100_000000000001_00001_00010#32 = some (.addis 2 1 1#64) := by decide
theorem test_decode_subi : decodeWord 0#64 0b1101000100_000000000001_00001_00001#32 = some (.subi 1 1 1#64) := by decide
theorem test_decode_subis :
    decodeWord 0#64 0b1111000100_011111111111_01001_01001#32 = some (.subis 9 9 2047#64) := by decide
theorem test_decode_andi :
    decodeWord 0#64 0b1001001000_111100000000_00110_00111#32 = some (.andi 7 6 (-256#64)) := by decide
theorem test_decode_andis :
    decodeWord 0#64 0b1111001000_100000000000_00000_00000#32 = some (.andis 0 0 (-2048#64)) := by decide
theorem test_decode_orri :
    decodeWord 0#64 0b1011001000_111100000000_11111_00001#32 = some (.orri 1 31 (-256#64)) := by decide
theorem test_decode_eori :
    decodeWord 0#64 0b1101001000_111111111111_00001_00101#32 = some (.eori 5 1 (-1#64)) := by decide
theorem test_decode_b : decodeWord 5#64 0b000101_11111111111111111111111111#32 = some (.b 4) := by decide
theorem test_decode_bEq : decodeWord 10#64 0b01010100_1111111111111111111_00000#32 = some (.bEq 9) := by decide
theorem test_decode_bNe : decodeWord 10#64 0b01010100_0000000000000000010_00001#32 = some (.bNe 12) := by decide
theorem test_decode_bLt : decodeWord 10#64 0b01010100_0000000000000000011_01011#32 = some (.bLt 13) := by decide
theorem test_decode_bLe : decodeWord 10#64 0b01010100_1111111111111111101_01101#32 = some (.bLe 7) := by decide
theorem test_decode_bGt : decodeWord 10#64 0b01010100_0000000000000000001_01100#32 = some (.bGt 11) := by decide
theorem test_decode_bGe : decodeWord 10#64 0b01010100_0111111111111111111_01010#32 = some (.bGe 262153) := by decide
theorem test_decode_bMi : decodeWord 10#64 0b01010100_0000000000000000010_00100#32 = some (.bMi 12) := by decide
theorem test_decode_bPl : decodeWord 10#64 0b01010100_0000000000000000010_00101#32 = some (.bPl 12) := by decide
theorem test_decode_bVs : decodeWord 10#64 0b01010100_0000000000000000010_00110#32 = some (.bVs 12) := by decide
theorem test_decode_bVc : decodeWord 10#64 0b01010100_1111111111111111100_00111#32 = some (.bVc 6) := by decide
theorem test_decode_cbnz : decodeWord 4#64 0b10110101_1111111111111111110_00001#32 = some (.cbnz 1 2) := by decide
theorem test_decode_ldur :
    decodeWord 0#64 0b11111000010_000000000_00_00001_01000#32 = some (.ldur 8 1 0#64) := by decide
theorem test_decode_stur :
    decodeWord 0#64 0b11111000000_111111000_00_00001_00010#32 = some (.stur 2 1 (-8#64)) := by decide
theorem test_decode_ldurb :
    decodeWord 0#64 0b00111000010_011111111_00_00001_00011#32 = some (.ldurb 3 1 255#64) := by decide
theorem test_decode_sturb :
    decodeWord 0#64 0b00111000000_000000001_00_00001_00110#32 = some (.sturb 6 1 1#64) := by decide
theorem test_decode_ldurh :
    decodeWord 0#64 0b01111000010_111111110_00_00001_01001#32 = some (.ldurh 9 1 (-2#64)) := by decide
theorem test_decode_sturh :
    decodeWord 0#64 0b01111000000_100000000_00_00001_00001#32 = some (.sturh 1 1 (-256#64)) := by decide
theorem test_decode_ldursw :
    decodeWord 0#64 0b10111000100_000001000_00_00001_00111#32 = some (.ldursw 7 1 8#64) := by decide
theorem test_decode_sturw :
    decodeWord 0#64 0b10111000000_000010001_00_10000_00110#32 = some (.sturw 6 16 17#64) := by decide

/-- 95_test_vectors.md section 4.4: no row matches these words. -/
theorem test_decode_illegal :
    [0x8B000400#32, 0xD3610000#32, 0xF8400400#32, 0x54000002#32, 0x5400000E#32, 0x54000010#32, 0x94000000#32, 0xB4000000#32,
      0xD61F03C0#32, 0x9B027C20#32, 0x38800000#32, 0xB8400000#32, 0xD503201F#32, 0x00000000#32].all
      (fun w => (decodeWord 0#64 w).isNone) = true := by decide

/-- 95_test_vectors.md section 4.3, the words of its programs and the encoder (30_encoding.md R99). -/
theorem test_encode_words :
    encode 0#64 (.subs 31 1 2) = 0xEB02003F#32 ∧ encode 0#64 (.andis 0 0 (-2048#64)) = 0xF2200000#32 ∧
    encode 10#64 (.bVc 6) = 0x54FFFF87#32 ∧ encode 0#64 (.sturh 1 1 (-256#64)) = 0x78100021#32 ∧
    encode 0#64 (.lsr 2 1 60) = 0xD340F022#32 ∧ encode 1#64 (.b 3) = 0x14000002#32 := by decide

/-! ## Well-formedness: an ill-formed term for each check, refused (30_encoding.md R90 to R93) -/

theorem test_wellFormed_aluImm : aluImmFits 2047#64 = true ∧ aluImmFits (-2048#64) = true := by decide
theorem test_wellFormed_aluImm_refused :
    (Instr.addi 1 2 2048#64).wellFormed 0#64 = false ∧ (Instr.eori 1 2 (-2049#64)).wellFormed 0#64 = false := by decide
theorem test_wellFormed_dtOffset : dtOffsetFits 255#64 = true ∧ dtOffsetFits (-256#64) = true := by decide
theorem test_wellFormed_dtOffset_refused :
    (Instr.ldur 1 2 256#64).wellFormed 0#64 = false ∧ (Instr.sturb 1 2 (-257#64)).wellFormed 0#64 = false := by decide
theorem test_wellFormed_branch : branchFits 5#64 0x2000004#64 = true ∧ branchFits 0#64 (-0x2000000#64) = true := by decide
theorem test_wellFormed_branch_refused :
    (Instr.b 0x2000005#64).wellFormed 5#64 = false ∧ (Instr.b (-0x2000001#64)).wellFormed 0#64 = false := by decide
theorem test_wellFormed_condBranch : condBranchFits 5#64 0x40004#64 = true ∧ condBranchFits 0#64 (-0x40000#64) = true := by
  decide
theorem test_wellFormed_condBranch_refused :
    (Instr.bLt 0x40005#64).wellFormed 5#64 = false ∧ (Instr.cbnz 1 (-0x40001#64)).wellFormed 0#64 = false := by decide

/-! ## Operand bundles: 95_test_vectors.md section 4.2 -/

theorem test_bundle_adds_lower :
    decodeBundle { mnemonic := "adds", rd := some 2, rn := some 1, rm := some 0 } = .ok (.adds 2 1 0) := by decide
theorem test_bundle_unknown :
    decodeBundle { mnemonic := "ADDX", rd := some 2, rn := some 1, rm := some 0 } = .error (.unknownMnemonic 0#64) := by decide
theorem test_bundle_b_no_target :
    decodeBundle { mnemonic := "B" } = .error .invalidOperandBundle := by decide
theorem test_bundle_add_no_rm :
    decodeBundle { mnemonic := "ADD", rd := some 1, rn := some 2 } = .error .invalidOperandBundle := by decide
theorem test_bundle_lsl_64 :
    decodeBundle { mnemonic := "LSL", rd := some 1, rn := some 1, imm := some 64 } = .error .invalidOperandBundle := by decide
theorem test_bundle_lsr_negative :
    decodeBundle { mnemonic := "LSR", rd := some 1, rn := some 1, imm := some (-1) } = .error .invalidOperandBundle := by decide
theorem test_bundle_cbnz_no_rt :
    decodeBundle { mnemonic := "CBNZ", target := some 3 } = .error .invalidOperandBundle := by decide
theorem test_bundle_unused_imm :
    decodeBundle { mnemonic := "ADD", rd := some 1, rn := some 2, rm := some 3, imm := some 9 } = .ok (.add 1 2 3) := by decide
theorem test_bundle_unused_disc :
    decodeBundle { mnemonic := "LDUR", rt := some 2, rn := some 1, imm := some 0, disc := some 3 } = .ok (.ldur 2 1 0#64) := by decide
theorem test_bundle_wide_imm :
    decodeBundle { mnemonic := "ADDI", rd := some 1, rn := some 31, imm := some 100000 } = .ok (.addi 1 31 0x186A0#64) := by decide
theorem test_bundle_xyz :
    decodeBundle { mnemonic := "XYZ", rd := some 1 } = .error (.unknownMnemonic 0#64) := by decide
theorem test_bundle_imm_too_wide :
    decodeBundle { mnemonic := "ADDI", rd := some 1, rn := some 31, imm := some (2 ^ 63) } = .error .invalidOperandBundle := by decide

/-! ## Instructions: 95_test_vectors.md sections 2 to 4 -/

theorem test_add_wraps :
    Tests.xf (.add 3 1 2) (Tests.start [(1, 0xFFFFFFFFFFFFFFFF#64), (2, 1#64)] (Tests.nzcv 0 0 1 0)) 3 =
      some (0#64, Tests.nzcv 0 0 1 0) := by decide
theorem test_add_same_register :
    Tests.xf (.add 1 1 1) (Tests.start [(1, 0x7FF#64)] (Tests.nzcv 0 0 1 0)) 1 =
      some (0xFFE#64, Tests.nzcv 0 0 1 0) := by decide
theorem test_adds_overflow :
    Tests.xf (.adds 3 1 2) (Tests.start [(1, 0x7FFFFFFFFFFFFFFF#64), (2, 1#64)] (Tests.nzcv 0 0 1 0)) 3 =
      some (0x8000000000000000#64, Tests.nzcv 1 0 0 1) := by decide
theorem test_adds_carry_and_overflow :
    Tests.xf (.adds 3 1 2) (Tests.start [(1, 0x8000000000000000#64), (2, 0x8000000000000000#64)] (Tests.nzcv 0 0 1 0)) 3 =
      some (0#64, Tests.nzcv 0 1 1 1) := by decide
theorem test_sub_wraps :
    Tests.xf (.sub 3 1 2) (Tests.start [(1, 0#64), (2, 1#64)] (Tests.nzcv 0 0 1 0)) 3 =
      some (0xFFFFFFFFFFFFFFFF#64, Tests.nzcv 0 0 1 0) := by decide
theorem test_sub_order :
    Tests.xf (.sub 3 1 2) (Tests.start [(1, 5#64), (2, 3#64)] (Tests.nzcv 0 0 1 0)) 3 =
      some (2#64, Tests.nzcv 0 0 1 0) := by decide
theorem test_subs_literal :
    Tests.xf (.subs 3 1 2) (Tests.start [(1, 0#64), (2, 1#64)] (Tests.nzcv 0 0 1 0)) 3 =
      some (0xFFFFFFFFFFFFFFFF#64, Tests.nzcv 1 0 0 1) := by decide
theorem test_subs_negated :
    Tests.xf (.subs 3 1 2) { Tests.start [(1, 0x8000000000000000#64), (2, 1#64)] (Tests.nzcv 0 0 1 0) with cfg := { Config.decided 0x1000 with subV := .negated } } 3 =
      some (0x7FFFFFFFFFFFFFFF#64, Tests.nzcv 0 0 1 1) := by decide
theorem test_and :
    Tests.xf (.and 3 1 2) (Tests.start [(1, 0xF0F0#64), (2, 0xFF00#64)] (Tests.nzcv 0 0 1 0)) 3 =
      some (0xF000#64, Tests.nzcv 0 0 1 0) := by decide
theorem test_ands_keeps_flags :
    Tests.xf (.ands 4 1 31) (Tests.start [(1, 0x7FFFFFFFFFFFFFFF#64)] (Tests.nzcv 0 0 1 0)) 4 =
      some (0#64, Tests.nzcv 0 0 1 0) := by decide
theorem test_orr :
    Tests.xf (.orr 3 1 2) (Tests.start [(1, 0xF0#64), (2, 0x0F#64)] (Tests.nzcv 0 0 1 0)) 3 =
      some (0xFF#64, Tests.nzcv 0 0 1 0) := by decide
theorem test_orr_zero_register :
    Tests.xf (.orr 3 1 31) (Tests.start [(1, 0x1234#64), (31, 7#64)] (Tests.nzcv 0 0 1 0)) 3 =
      some (0x1234#64, Tests.nzcv 0 0 1 0) := by decide
theorem test_eor :
    Tests.xf (.eor 3 1 2) (Tests.start [(1, 0xFFFFFFFFFFFFFFFF#64), (2, 0x5555555555555555#64)] (Tests.nzcv 0 0 1 0)) 3 =
      some (0xAAAAAAAAAAAAAAAA#64, Tests.nzcv 0 0 1 0) := by decide
theorem test_lsl_63 :
    Tests.xf (.lsl 3 1 63) (Tests.start [(1, 1#64)] (Tests.nzcv 0 0 1 0)) 3 =
      some (0x8000000000000000#64, Tests.nzcv 0 0 1 0) := by decide
theorem test_lsl_drops :
    Tests.xf (.lsl 1 1 1) (Tests.start [(1, 0x8000000000000001#64)] (Tests.nzcv 0 0 1 0)) 1 =
      some (2#64, Tests.nzcv 0 0 1 0) := by decide
theorem test_lsr_63 :
    Tests.xf (.lsr 3 1 63) (Tests.start [(1, 0xFFFFFFFFFFFFFFFF#64)] (Tests.nzcv 0 0 1 0)) 3 =
      some (1#64, Tests.nzcv 0 0 1 0) := by decide
theorem test_lsr_zero_fill :
    Tests.xf (.lsr 3 1 4) (Tests.start [(1, 0xFFFFFFFFFFFFFFFF#64)] (Tests.nzcv 0 0 1 0)) 3 =
      some (0x0FFFFFFFFFFFFFFF#64, Tests.nzcv 0 0 1 0) := by decide
theorem test_addi_smallest :
    Tests.xf (.addi 3 1 (-2048#64)) (Tests.start [(1, 5#64)] (Tests.nzcv 0 0 1 0)) 3 =
      some (0xFFFFFFFFFFFFF805#64, Tests.nzcv 0 0 1 0) := by decide
theorem test_addi_zero_register :
    Tests.xf (.addi 31 1 1#64) (Tests.start [(1, 5#64)] (Tests.nzcv 0 0 1 0)) 31 =
      some (0#64, Tests.nzcv 0 0 1 0) := by decide
theorem test_addis_clear :
    Tests.xf (.addis 3 1 1#64) (Tests.start [(1, 0xFFFFFFFFFFFFFFFF#64)] (Tests.nzcv 0 0 1 0)) 3 =
      some (0#64, Tests.nzcv 0 1 0 0) := by decide
theorem test_addis_preserve :
    Tests.xf (.addis 3 1 1#64) { Tests.start [(1, 0x7FFFFFFFFFFFFFFF#64)] (Tests.nzcv 0 0 1 0) with cfg := { Config.decided 0x1000 with addisC := .preserve } } 3 =
      some (0x8000000000000000#64, Tests.nzcv 1 0 1 1) := by decide
theorem test_subi :
    Tests.xf (.subi 3 1 3#64) (Tests.start [(1, 0xA#64)] (Tests.nzcv 0 0 1 0)) 3 =
      some (7#64, Tests.nzcv 0 0 1 0) := by decide
theorem test_subi_negative :
    Tests.xf (.subi 3 1 (-2048#64)) (Tests.start [] (Tests.nzcv 0 0 1 0)) 3 =
      some (0x800#64, Tests.nzcv 0 0 1 0) := by decide
theorem test_subis_zero_immediate :
    Tests.xf (.subis 3 1 0#64) (Tests.start [(1, 5#64)] (Tests.nzcv 0 0 1 0)) 3 =
      some (5#64, Tests.nzcv 0 0 0 0) := by decide
theorem test_subis_literal :
    Tests.xf (.subis 3 1 5#64) (Tests.start [(1, 3#64)] (Tests.nzcv 0 0 1 0)) 3 =
      some (0xFFFFFFFFFFFFFFFE#64, Tests.nzcv 1 0 0 1) := by decide
theorem test_andi_sign_extends :
    Tests.xf (.andi 3 1 (-256#64)) (Tests.start [(1, 0xFF#64)] (Tests.nzcv 0 0 1 0)) 3 =
      some (0#64, Tests.nzcv 0 0 1 0) := by decide
theorem test_andis_keeps_flags :
    Tests.xf (.andis 3 1 15#64) (Tests.start [(1, 0xF0#64)] (Tests.nzcv 0 0 1 0)) 3 =
      some (0#64, Tests.nzcv 0 0 1 0) := by decide
theorem test_orri :
    Tests.xf (.orri 3 1 255#64) (Tests.start [(1, 0x100#64)] (Tests.nzcv 0 0 1 0)) 3 =
      some (0x1FF#64, Tests.nzcv 0 0 1 0) := by decide
theorem test_eori_not :
    Tests.xf (.eori 3 1 (-1#64)) (Tests.start [(1, 0x1234#64)] (Tests.nzcv 0 0 1 0)) 3 =
      some (0xFFFFFFFFFFFFEDCB#64, Tests.nzcv 0 0 1 0) := by decide

/-- The PC of each B.cond from PC 4 with target 9, in the order of the columns of 95_test_vectors.md section 3.1. -/
def Tests.branches (f : Flags) : List (Option Word) :=
  [Instr.bEq 9, .bNe 9, .bLt 9, .bLe 9, .bGt 9, .bGe 9, .bMi 9, .bPl 9, .bVs 9, .bVc 9].map
    fun i => Tests.pc i { State.reset with pc := 4, flags := f }

/-- The PCs a row of the table gives: `T` is the target 9, `-` is 5. -/
def Tests.row (l : List Nat) : List (Option Word) := l.map fun t => some (if t == 1 then 9 else 5)

theorem test_conditions_000 : Tests.branches (Tests.nzcv 0 0 1 0) = Tests.row [0, 1, 0, 0, 1, 1, 0, 1, 0, 1] := by decide
theorem test_conditions_001 : Tests.branches (Tests.nzcv 0 0 1 1) = Tests.row [0, 1, 1, 1, 0, 0, 0, 1, 1, 0] := by decide
theorem test_conditions_010 : Tests.branches (Tests.nzcv 0 1 1 0) = Tests.row [1, 0, 0, 1, 0, 1, 0, 1, 0, 1] := by decide
theorem test_conditions_011 : Tests.branches (Tests.nzcv 0 1 1 1) = Tests.row [1, 0, 1, 1, 0, 0, 0, 1, 1, 0] := by decide
theorem test_conditions_100 : Tests.branches (Tests.nzcv 1 0 1 0) = Tests.row [0, 1, 1, 1, 0, 0, 1, 0, 0, 1] := by decide
theorem test_conditions_101 : Tests.branches (Tests.nzcv 1 0 1 1) = Tests.row [0, 1, 0, 0, 1, 1, 1, 0, 1, 0] := by decide
theorem test_conditions_110 : Tests.branches (Tests.nzcv 1 1 1 0) = Tests.row [1, 0, 1, 1, 0, 0, 1, 0, 0, 1] := by decide
theorem test_conditions_111 : Tests.branches (Tests.nzcv 1 1 1 1) = Tests.row [1, 0, 0, 1, 0, 1, 1, 0, 1, 0] := by decide
theorem test_b : Tests.pc (.b 100) (Tests.at 5#64 []) = some 100#64 := by decide
theorem test_cbnz_taken :
    Tests.pc (.cbnz 1 2) { Tests.start [(1, 0x8000000000000000#64)] (Tests.nzcv 0 1 0 0) with pc := 4 } = some 2#64 := by decide
theorem test_cbnz_not_taken_wraps :
    Tests.pc (.cbnz 1 5) (Tests.at (-1#64) []) = some 0#64 := by decide

theorem test_ldur_misaligned :
    Tests.xc (.ldur 2 1 1#64) (Tests.data [(1, 0x100#64)] false) 2 = some (0xBE11223344556677#64, 0#3) := by decide
theorem test_ldur_base_is_target :
    Tests.xc (.ldur 1 1 0#64) (Tests.data [(1, 0x100#64)] false) 1 = some (0x1122334455667788#64, 0#3) := by decide
theorem test_ldurb_zero_extends :
    Tests.xc (.ldurb 2 1 0#64) (Tests.data [(1, 0x100#64)] false) 2 = some (0x88#64, 0#3) := by decide
theorem test_ldurb_wraps :
    Tests.xc (.ldurb 2 1 1#64) (Tests.data [(1, 0xFFFFFFFFFFFFFFFF#64)] false) 2 = some (0#64, 0#3) := by decide
theorem test_ldurh :
    Tests.xc (.ldurh 2 1 6#64) (Tests.data [(1, 0x100#64)] false) 2 = some (0x1122#64, 0#3) := by decide
theorem test_ldurh_misaligned :
    Tests.xc (.ldurh 2 1 1#64) (Tests.data [(1, 0x100#64)] true) 2 = some (0#64, 4#3) := by decide
theorem test_ldursw_sign_extends :
    Tests.xc (.ldursw 2 1 8#64) (Tests.data [(1, 0x100#64)] false) 2 = some (0xFFFFFFFFCAFEBABE#64, 0#3) := by decide
theorem test_ldursw_positive :
    Tests.xc (.ldursw 2 1 0#64) (Tests.data [(1, 0x100#64)] false) 2 = some (0x55667788#64, 0#3) := by decide
theorem test_stur :
    Tests.bytes (.stur 2 1 16#64) (Tests.data [(1, 0x100#64), (2, 0x1122334455667788#64)] false) 0x10F 10 =
      some [0x00#8, 0x88#8, 0x77#8, 0x66#8, 0x55#8, 0x44#8, 0x33#8, 0x22#8, 0x11#8, 0x00#8] := by decide
theorem test_stur_zero_register :
    Tests.bytes (.stur 31 1 0#64) (Tests.data [(1, 0x100#64)] false) 0x100 9 =
      some [0x00#8, 0x00#8, 0x00#8, 0x00#8, 0x00#8, 0x00#8, 0x00#8, 0x00#8, 0xBE#8] := by decide
theorem test_sturb :
    Tests.bytes (.sturb 2 1 1#64) (Tests.data [(1, 0x100#64), (2, 0xCAFEBABE#64)] false) 0x100 3 =
      some [0x88#8, 0xBE#8, 0x66#8] := by decide
theorem test_sturh :
    Tests.bytes (.sturh 2 1 16#64) (Tests.data [(1, 0x100#64), (2, 0x1234ABCD#64)] false) 0x10F 4 =
      some [0x00#8, 0xCD#8, 0xAB#8, 0x00#8] := by decide
theorem test_sturw :
    Tests.bytes (.sturw 2 1 16#64) (Tests.data [(1, 0x100#64), (2, 0xFFFFFFFFCAFEBABE#64)] false) 0x10F 6 =
      some [0x00#8, 0xBE#8, 0xBA#8, 0xFE#8, 0xCA#8, 0x00#8] := by decide

/-! ## Faults and stops: 95_test_vectors.md sections 4.1, 4.2 and 5 -/

theorem test_range_last :
    Tests.xc (.ldur 2 1 0#64) (Tests.data [(1, 0xFF8#64)] true) 2 = some (0#64, 0#3) := by decide
theorem test_range_fault :
    (Tests.next (exec (.ldur 2 1 1#64) (Tests.data [(1, 0xFF8#64)] false))).map State.fault =
      some ⟨true, 3#3, 0#64, 0xFF9#64⟩ := by decide
theorem test_range_does_not_wrap :
    (Tests.next (exec (.ldurb 2 31 (-1#64)) (Tests.data [] false))).map State.fault =
      some ⟨true, 3#3, 0#64, 0xFFFFFFFFFFFFFFFF#64⟩ := by decide
theorem test_range_before_alignment :
    (Tests.next (exec (.ldur 2 1 7#64) (Tests.data [(1, 0xFF8#64)] true))).map State.fault =
      some ⟨true, 3#3, 0#64, 0xFFF#64⟩ := by decide
theorem test_illegal_word_fault :
    Tests.fault (Tests.at 1#64 [.word 0x910007E1#32, .word 0x94000000#32]) =
      some (⟨true, 1#3, 1#64, 0x94000000#64⟩, 1#64) := by decide
theorem test_bundle_fault :
    Tests.fault (Tests.at 0#64 [.bundle { mnemonic := "B" }]) = some (⟨true, 2#3, 0#64, 0#64⟩, 0#64) := by decide
theorem test_end_of_program :
    (match step (Tests.at 1#64 [.word 0x910007E1#32]) with | .fault .endOfProgram => true | _ => false) = true := by decide
theorem test_halted :
    (match step { Tests.at 0#64 [.word 0x910007E1#32] with fault := ⟨true, 1#3, 0#64, 0#64⟩ } with
      | .fault .haltedByFault => true | _ => false) = true := by decide
theorem test_step_addi :
    (Tests.next (step (Tests.at 0#64 [.word 0x910007E1#32]))).map (fun t => (t.x 1, t.pc)) = some (1#64, 1#64) := by decide

/-! ## Memory and reset -/

theorem test_memory_wf : Tests.memory.wf := by decide
theorem test_write_of_zero_unlists : (Tests.memory.write 0x101 0#8).length = 11 := by decide
theorem test_reset_inv : State.reset.Inv := by decide
theorem test_reset_after_fault :
    (applyReset ⟨Tests.regs [(31, 7#64)], Tests.nzcv 0 0 0 0, []⟩
      { State.reset with pc := 3, fault := ⟨true, 3#3, 3#64, 0xFFE#64⟩ }).fault = FaultStatus.clear := by decide

/-! ## Witnesses: concrete states and operands that meet the hypotheses of each statement, clause by clause -/

/-- OneRowOrNoneMatches: a word of each branch. -/
theorem test_witness_OneRowOrNoneMatches :
    (Op.bVc ≠ Op.bVs) ∧ 0x54FFFF87#32 &&& Op.bVc.mask = Op.bVc.pattern ∧
    (Op.all.all fun o => 0x00000000#32 &&& o.mask != o.pattern) = true := by decide

/-- ConditionNumbersOfBcond: the largest condition number in the list, one between and one past it. -/
theorem test_witness_ConditionNumbersOfBcond :
    bits 24 8 0x5400000D#32 = 0b01010100#8 ∧ bits 0 5 0x5400000D#32 = 13#5 ∧
    bits 24 8 0x54000002#32 = 0b01010100#8 ∧ bits 24 8 0x5400000E#32 = 0b01010100#8 := by decide

/-- UnusedFieldsMustBeZeroInAWord: words with one unused bit set, and bundles of each kind. -/
theorem test_witness_UnusedFieldsMustBeZeroInAWord :
    (bits 10 6 0x8B000400#32 ≠ 0#6 ∧ bits 21 11 0x8B000400#32 = 0b10001011000#11) ∧
    (bits 16 5 0xD3610000#32 ≠ 0#5 ∧ bits 21 11 0xD3610000#32 = 0b11010011011#11) ∧
    (bits 10 2 0xF8400400#32 ≠ 0#2 ∧ bits 21 11 0xF8400400#32 = 0b11111000010#11) ∧
    findMnemonic "EOR" = some .eor ∧ findMnemonic "LSR" = some .lsr := by decide

/-- BranchWordTargets: both ends of the 26-bit and of the 19-bit range. -/
theorem test_witness_BranchWordTargets :
    bits 26 6 0x15FFFFFF#32 = 0b000101#6 ∧ (bits 0 26 0x15FFFFFF#32).toInt = 2 ^ 25 - 1 ∧
    bits 26 6 0x16000000#32 = 0b000101#6 ∧ (bits 0 26 0x16000000#32).toInt = -(2 ^ 25) ∧
    bits 24 8 0xB57FFFE1#32 = 0b10110101#8 ∧ (bits 5 19 0xB57FFFE1#32).toInt = 2 ^ 18 - 1 ∧
    bits 24 8 0xB5800001#32 = 0b10110101#8 ∧ (bits 5 19 0xB5800001#32).toInt = -(2 ^ 18) ∧
    decodeWord 10#64 0x54FFFF87#32 = some (.bVc 6) := by decide

/-- MnemonicLookupIgnoresCase: a mnemonic that is found in any case, and a bundle whose mnemonic is not found. -/
theorem test_witness_MnemonicLookupIgnoresCase :
    findMnemonic "AdDs" = some .adds ∧ foldCase Op.adds.name = foldCase "adds" ∧ findMnemonic "ADDX" = none := by decide

/-- BundleNeedsItsFormatsFields: a shift amount at the end of its range, and one past it. -/
theorem test_witness_BundleNeedsItsFormatsFields :
    findMnemonic "LSL" = some .lsl ∧
    carries { mnemonic := "LSL", rd := some 1, rn := some 1, imm := some 63 } (.lsl 1 1 63) ∧
    decodeBundle { mnemonic := "LSL", rd := some 1, rn := some 1, imm := some 63 } = .ok (.lsl 1 1 63) ∧
    decodeBundle { mnemonic := "LSL", rd := some 1, rn := some 1, imm := some 64 } = .error .invalidOperandBundle :=
  ⟨by decide, ⟨rfl, rfl, rfl⟩, by decide, by decide⟩

/-- DecodeOfEncode and WordAndBundleDecodeAlike: operands at the ends of their fields. -/
theorem test_witness_DecodeOfEncode :
    (Instr.addi 31 0 2047#64).wellFormed 7#64 = true ∧ (Instr.ldursw 31 0 (-256#64)).wellFormed 7#64 = true ∧
    (Instr.b (7#64 - 0x2000000#64)).wellFormed 7#64 = true ∧ (Instr.cbnz 31 0x40006#64).wellFormed 7#64 = true := by decide

theorem test_witness_WordAndBundleDecodeAlike : (Instr.subis 9 9 (-2048#64)).wellFormed (-1#64) = true := by decide

theorem test_witness_EncodeOfDecode : decodeWord (-1#64) 0x17FFFFFF#32 = some (.b (-2#64)) := by decide

/-- StepRunsTheDecodedInstruction, for a word and for a bundle. -/
theorem test_witness_StepRunsTheDecodedInstruction :
    let s := Tests.at 1#64 [.word 0#32, .word 0x14000002#32]
    s.fault.faulted = false ∧ s.program[s.pc.toNat]? = some (.word 0x14000002#32) ∧
    decodeSlot s.pc (.word 0x14000002#32) = .ok (.b 3) ∧
    decodeSlot s.pc (.bundle { mnemonic := "b", target := some 3 }) = .ok (.b 3) := by decide

theorem test_witness_PlacedWordRunsNext :
    decodeWord (Tests.at 5#64 []).pc (BitVec.ofNat 32 (0x17FFFFFF % 2 ^ 32)) = some (.b 4) := by decide

/-- DecodeFaultsAreRecorded: what each of its clauses asks of the slot (a bundle slot stands below). -/
theorem test_witness_DecodeFaultsAreRecorded :
    let s := Tests.at 1#64 [.word 0#32, .word 0x94000000#32]
    s.fault.faulted = false ∧ s.program[s.pc.toNat]? = some (.word 0x94000000#32) ∧ findWord 0x94000000#32 = none ∧
    findWord 0x910007E1#32 = some .addi ∧ findMnemonic "ADDX" = none ∧ findMnemonic "B" = some .b := by decide

theorem test_witness_bundle_without_target : ¬ ∃ i : Instr, i.op = .b ∧ carries { mnemonic := "B" } i := by
  rintro ⟨i, hi, hc⟩
  cases i <;> simp_all [Instr.op, carries]

theorem test_witness_bundle_slot :
    let s := Tests.at 0#64 [.bundle { mnemonic := "B" }]
    s.fault.faulted = false ∧ s.program[s.pc.toNat]? = some (.bundle { mnemonic := "B" }) := by decide

/-- RunIsInOneOfThreeConditions: a state in each condition, the PC on either side of the end. -/
theorem test_witness_RunIsInOneOfThreeConditions :
    (Tests.at 0#64 [.word 0x910007E1#32]).condition = .ableToStep ∧
    (Tests.at 1#64 [.word 0x910007E1#32]).condition = .endedNormally ∧
    { Tests.at 0#64 [.word 0x910007E1#32] with fault := ⟨true, 3#3, 0#64, 0#64⟩ }.condition = .haltedByFault := by decide

/-- FaultCommitsOnlyItsRecord: the step of an illegal word. -/
theorem test_witness_FaultCommitsOnlyItsRecord :
    ∃ t, step (Tests.at 0#64 [.word 0#32]) = .next t ∧ t.fault.faulted = true := ⟨_, rfl, by decide⟩

/-- OnlyResetClearsTheRecord: a halted state, and an instruction with a next state. -/
theorem test_witness_OnlyResetClearsTheRecord :
    { State.reset with fault := ⟨true, 4#3, 0#64, 1#64⟩ }.fault.faulted = true ∧
    ∃ t, exec (.add 1 2 3) State.reset = .next t := ⟨by decide, _, rfl⟩

/-- FaultsFollowTheirPriority: a slot of each arm, the last one both out of range and misaligned. -/
theorem test_witness_FaultsFollowTheirPriority :
    let s := { Tests.data [(1, 0xFF8#64)] true with program := [.word 0xF8407022#32] }
    s.fault.faulted = false ∧ s.program[s.pc.toNat]? = some (.word 0xF8407022#32) ∧
    decodeSlot s.pc (.word 0xF8407022#32) = .ok (.ldur 2 1 7#64) ∧ dataAccess (.ldur 2 1 7#64) = some (1, 7#64, 8) ∧
    s.cfg.memSize < (effectiveAddress s 1 7#64).toNat + 8 ∧ (effectiveAddress s 1 7#64).toNat % 8 ≠ 0 := by decide

/-- NextPcIsTargetOrPlusOne: a not-taken branch at the last PC, a taken one, and a faulting load. -/
theorem test_witness_NextPcIsTargetOrPlusOne :
    (∃ t, exec (.cbnz 1 5) (Tests.at (-1#64) []) = .next t ∧ t.pc = 0#64) ∧
    (∃ t, exec (.bNe 5) (Tests.at (-1#64) []) = .next t ∧ t.pc = 5#64) ∧
    (∃ t, exec (.ldurb 1 2 0x1000#64) (Tests.at 3#64 []) = .next t ∧ t.fault.faulted = true) ∧
    (Tests.at 3#64 []).fault.faulted = false :=
  ⟨⟨_, rfl, by decide⟩, ⟨_, rfl, by decide⟩, ⟨_, rfl, by decide⟩, by decide⟩

theorem test_witness_OnlyDataTransfersFault : dataAccess (.subs 31 1 2) = none ∧ dataAccess (.bLe 0) = none := by decide

/-- InstructionsWriteOnlyTheirDestinations: an instruction with a destination, a store with bytes just outside it, and a
form with neither. -/
theorem test_witness_InstructionsWriteOnlyTheirDestinations :
    (∃ t, exec (.add 1 2 3) State.reset = .next t) ∧ destination (.add 1 2 3) ≠ some 2 ∧
    (∃ t, exec (.sturw 2 1 16#64) (Tests.data [(1, 0x100#64)] false) = .next t) ∧
    storedBytes (Tests.data [(1, 0x100#64)] false) (.sturw 2 1 16#64) = some (0x110#64, 4) ∧
    storedBytes State.reset (.bEq 3) = none := ⟨⟨_, rfl⟩, by decide, ⟨_, rfl⟩, by decide, by decide⟩

theorem test_witness_ProgramIsNeverWritten : ∃ t, step (Tests.at 0#64 [.word 0x910007E1#32]) = .next t := ⟨_, rfl⟩

/-- ExactlyFourInstructionsWriteFlags: ANDS is not one of the four. -/
theorem test_witness_ExactlyFourInstructionsWriteFlags :
    (∃ t, exec (.ands 1 2 3) State.reset = .next t) ∧ (Instr.ands 1 2 3).op ∉ [Op.adds, .subs, .addis, .subis] :=
  ⟨⟨_, rfl⟩, by decide⟩

/-- AddOverflowIsSignedOverflow and SubtractionCarryIsNoBorrow at the ends of the number range. -/
theorem test_witness_flag_functions :
    ovf 0x7FFFFFFFFFFFFFFF#64 1#64 0x8000000000000000#64 = true ∧ ovf (-1#64) 1#64 0#64 = false ∧
    carry 5#64 (neg64 5#64) = true ∧ carry 4#64 (neg64 5#64) = false ∧ carry (-1#64) (neg64 0#64) = false := by decide

/-- SubtractionOverflowRules: operands for each of its clauses, -2^63 and 0 among them. -/
theorem test_witness_SubtractionOverflowRules :
    (let a := 0x8000000000000000#64; let b := 0x8000000000000000#64
      vsub .literal a b (a - b) = true ∧ a.toInt < 0 ∧ b.toInt < 0) ∧
    (let a := 0x8000000000000000#64; let b := 1#64
      a.toInt - b.toInt < -(2 ^ 63) ∧ a.getLsbD 63 ≠ b.getLsbD 63) ∧
    (let a := 0#64; let b := 0x7FFFFFFFFFFFFFFF#64; 0 ≤ a.toInt ∧ 0 ≤ b.toInt) := by decide

/-- CompareThenSignedBranch: SUBS steps under both rules, with operands of equal and of different signs. -/
theorem test_witness_CompareThenSignedBranch :
    (let s := Tests.start [(1, 3#64), (2, 5#64)] (Tests.nzcv 0 0 0 0);
      (∃ t, exec (.subs 31 1 2) s = .next t) ∧ s.cfg.subV = .literal ∧ 0 ≤ (s.x 1).toInt ∧ 0 ≤ (s.x 2).toInt) ∧
    (let s := Tests.start [(1, -3#64), (2, 0x8000000000000000#64)] (Tests.nzcv 0 0 0 0);
      (∃ t, exec (.subs 31 1 2) s = .next t) ∧ s.cfg.subV = .literal ∧ (s.x 1).toInt < 0 ∧ (s.x 2).toInt < 0) ∧
    (let s := Tests.start [(1, 0#64), (2, -1#64)] (Tests.nzcv 0 0 0 0);
      (∃ t, exec (.subs 31 1 2) s = .next t) ∧ s.cfg.subV = .literal ∧ (s.x 1).getLsbD 63 ≠ (s.x 2).getLsbD 63) ∧
    (let s := { Tests.start [(1, 0x8000000000000000#64), (2, 0x8000000000000001#64)] (Tests.nzcv 0 0 0 0) with
        cfg := { Config.decided 8 with subV := .negated } };
      (∃ t, exec (.subs 31 1 2) s = .next t) ∧ s.cfg.subV = .negated ∧ s.x 2 ≠ 0x8000000000000000#64) :=
  ⟨⟨⟨_, rfl⟩, by decide⟩, ⟨⟨_, rfl⟩, by decide⟩, ⟨⟨_, rfl⟩, by decide⟩, ⟨⟨_, rfl⟩, by decide⟩⟩

theorem test_witness_EffectiveAddressWraps :
    State.reset.cfg.xzrHardwired = true ∧ effectiveAddress State.reset 31#5 (-1#64) = -1#64 := by decide

/-- LoadResults, StoreResults and StoreThenLoadRoundTrips: the last access of each width, aligned and checked. -/
theorem test_witness_data_transfers :
    let s := Tests.data [(1, 0xFF8#64)] true
    accessAllowed s (effectiveAddress s 1 0#64) 8 ∧ accessAllowed s (effectiveAddress s 1 7#64) 1 ∧
    accessAllowed s (effectiveAddress s 1 6#64) 2 ∧ accessAllowed s (effectiveAddress s 1 4#64) 4 ∧
    s.mem.wf ∧ (2#5 ≠ 31#5) := by decide

/-- DataTransferFaults: one byte too many, and a misaligned access that is in range. -/
theorem test_witness_DataTransferFaults :
    let s := Tests.data [(1, 0xFF8#64)] true
    dataAccess (.ldur 2 1 1#64) = some (1, 1#64, 8) ∧ s.cfg.memSize < (effectiveAddress s 1 1#64).toNat + 8 ∧
    dataAccess (.sturh 2 1 5#64) = some (1, 5#64, 2) ∧ (effectiveAddress s 1 5#64).toNat + 2 ≤ s.cfg.memSize ∧
    s.cfg.alignCheck = true ∧ (effectiveAddress s 1 5#64).toNat % 2 ≠ 0 := by decide

/-- RegisterThirtyOneIsZero: a general register when hardwired, and register 31 when it is not. -/
theorem test_witness_RegisterThirtyOneIsZero :
    ¬(true = true ∧ 30#5 = 31#5) ∧ ¬(false = true ∧ 31#5 = 31#5) ∧
    ¬(State.reset.cfg.xzrHardwired = true ∧ 30#5 = 31#5) := by decide

theorem test_witness_StoredZeroRegisterIsInvisible :
    (Tests.at 0#64 [.word 0x910017E1#32]).cfg.xzrHardwired = true ∧
    ∃ t, step (Tests.at 0#64 [.word 0x910017E1#32]) = .next t := ⟨by decide, _, rfl⟩

/-- ReadIsLittleEndian, WriteChangesExactlyItsBytes and MixedWidthsSeeTheLastBytes: the last byte of an access. -/
theorem test_witness_memory :
    Tests.memory.wf ∧ 7 < 8 ∧ (0x108 < 0x100 ∨ 0x100 + 8 ≤ 0x108) ∧
    (memRead (memWrite Tests.memory 0x104 8 0#64) 0x100 8).extractLsb' 24 8 = 0x55#8 ∧
    (memRead (memWrite Tests.memory 0x104 8 0#64) 0x100 8).extractLsb' 32 8 = 0x00#8 := by decide

/-- CanonicalMemoriesAreEqual: two ways to the same memory. -/
theorem test_witness_CanonicalMemoriesAreEqual :
    let m := (Tests.memory.write 0x50 7#8).write 0x50 0#8
    m.wf ∧ Tests.memory.wf ∧ m = Tests.memory := by decide

/-- InvariantHoldsAfterLaunch: the smallest memory, its last byte listed, register 31 given a value. -/
theorem test_witness_InvariantHoldsAfterLaunch :
    launchOk (Config.decided 8) ⟨Tests.regs [(31, 7#64)], Tests.nzcv 1 1 1 1, [(7, 1#8)]⟩ := by decide

/-- StepKeepsTheInvariant: a step that stores, and a step that faults, from a state with the invariant. -/
theorem test_witness_StepKeepsTheInvariant :
    (let s := { Tests.data [(1, 0x100#64)] true with program := [.word 0xF8010022#32] };
      s.Inv ∧ ∃ t, step s = .next t ∧ t.fault.faulted = false) ∧
    (let s := { Tests.data [(1, 0x100#64)] true with program := [.word 0xF8001022#32] };
      s.Inv ∧ ∃ t, step s = .next t ∧ t.fault.faulted = true) :=
  ⟨⟨by decide, _, rfl, by decide⟩, ⟨by decide, _, rfl, by decide⟩⟩

/-- ReachableStatesAreConsistent: a launched state. -/
theorem test_witness_ReachableStatesAreConsistent :
    Reachable (applyReset ⟨Tests.regs [], Tests.nzcv 0 0 0 0, []⟩
      { State.reset with cfg := Config.decided 8, program := [.word 0x910007E1#32] }) :=
  .launch State.reset _ _ _ (by decide)
end

section
/-!
The family of 10_state.md: the ports of the register file (R22), which instructions write the flags (R27), and the next PC
(R33, R34). The last two hold of the effects that an instruction commits, so they go through one predicate on outcomes,
`SettlesWith`, with one rule per shared step.
-/

namespace Sys2Proof.Machine

/-! ## The ports of the register file -/

/-- A read of a register that is not the hardwired register 31 is a read of the stored word (10_state.md R22). -/
theorem readPort_eq_stored {h : Bool} {ra : Reg} (regs : Vector Word 32) (hr : ¬(h = true ∧ ra = 31#5)) :
    readPort h regs ra = regs[ra.toNat]'ra.isLt := by
  simp [readPort, hr]

/-- A register reads its reset value after a reset, the hardwired register 31 excepted (10_state.md R22, R40). -/
theorem applyReset_x (init : InitValues) (s : State) (r : Reg) (hr : ¬(s.cfg.xzrHardwired = true ∧ r = 31#5)) :
    (applyReset init s).x r = init.regs[r.toNat]'r.isLt := by
  rw [State.x, applyReset_cfg, readPort_eq_stored _ hr]
  by_cases hw : s.cfg.xzrHardwired = true
  · have hne : 31 ≠ r.toNat := fun e => hr ⟨hw, BitVec.eq_of_toNat_eq e.symm⟩
    simp [hw, hne]
  · simp [hw]

/-- Settles O42: the three clauses are the ports at a hardwired register 31, `readPort_writePort`, and `applyReset_x`. -/
theorem registerThirtyOneIsZero : Obligations.RegisterThirtyOneIsZero := by
  refine ⟨fun regs wd => ⟨by simp [readPort], by simp [writePort]⟩, fun h regs wa ra wd hwa => ?_,
    fun s init r => applyReset_x init s r⟩
  rw [readPort_writePort]
  by_cases hra : h = true ∧ ra = 31#5
  · have hne : ra ≠ wa := fun e => hwa (e ▸ hra)
    rw [if_pos hra, if_neg hne]
    simp [readPort, hra]
  · rw [if_neg hra]

/-! ## Outcomes by the effects committed -/

/-- The outcome at `s` is the commit of effects with the property `P`, or a fault (10_state.md R38). -/
def SettlesWith (s : State) (P : Effects → Prop) (o : Host.Outcome State Fault Refusal) : Prop :=
  (∃ e, o = .next (commit s e) ∧ P e) ∨ ∃ k info, o = .next (raiseFault k info s)

section
variable {s t : State} {P : Effects → Prop}

theorem settlesWith_next (h : SettlesWith s P (.next t)) :
    (∃ e, t = commit s e ∧ P e) ∨ ∃ k info, t = raiseFault k info s := by
  obtain ⟨e, ht, he⟩ | ⟨k, info, ht⟩ := h
  · exact .inl ⟨e, Host.Outcome.next.inj ht, he⟩
  · exact .inr ⟨k, info, Host.Outcome.next.inj ht⟩

theorem settlesWith_commit {e : Effects} (he : P e) : SettlesWith s P (.next (commit s e)) :=
  .inl ⟨e, rfl, he⟩

/-- A load commits one register write, or faults (44_data_transfer.md R231). -/
theorem loadStep_settlesWith (size : LsSize) (sext : Bool) (rt rn : Reg) (imm : Word)
    (hP : ∀ v, P { wreg := some (rt, v) }) : SettlesWith s P (loadStep size sext rt rn imm s) := by
  rw [loadStep_eq]
  split
  · exact .inr ⟨_, _, rfl⟩
  · exact settlesWith_commit (hP _)

/-- A store commits one memory write, or faults (44_data_transfer.md R231). -/
theorem storeStep_settlesWith (size : LsSize) (rt rn : Reg) (imm : Word)
    (hP : ∀ q, P { wmem := some q }) : SettlesWith s P (storeStep size rt rn imm s) := by
  rw [storeStep_eq]
  split
  · exact .inr ⟨_, _, rfl⟩
  · exact settlesWith_commit (hP _)

end

/-! ## The flags -/

theorem condBranchEffects_wflag (c : Cond) (target : Word) (s : State) :
    (condBranchEffects c target s).wflag = FlagWrite.none := by
  unfold condBranchEffects; split <;> rfl

theorem cbnzEffects_wflag (rt : Reg) (target : Word) (s : State) :
    (cbnzEffects rt target s).wflag = FlagWrite.none := by
  unfold cbnzEffects; split <;> rfl

/-- Every instruction but the four of 10_state.md R27 enables no flag write. -/
theorem exec_writes_no_flag (i : Instr) (s : State) (hi : i.op ∉ [Op.adds, .subs, .addis, .subis]) :
    SettlesWith s (fun e => e.wflag = FlagWrite.none) (exec i s) := by
  cases i with
  | adds | subs | addis | subis => simp [Instr.op] at hi
  | add | sub | and | ands | orr | eor | lsl | lsr | addi | subi | andi | andis | orri | eori =>
    exact settlesWith_commit (e := aluEffects ..) rfl
  | b => exact settlesWith_commit rfl
  | bEq | bNe | bLt | bLe | bGt | bGe | bMi | bPl | bVs | bVc =>
    exact settlesWith_commit (condBranchEffects_wflag ..)
  | cbnz => exact settlesWith_commit (cbnzEffects_wflag ..)
  | ldur | ldurb | ldurh | ldursw => exact loadStep_settlesWith _ _ _ _ _ fun _ => rfl
  | stur | sturb | sturh | sturw => exact storeStep_settlesWith _ _ _ _ fun _ => rfl

/-- Every instruction but the four of 10_state.md R27 keeps the flags. -/
theorem exec_flags_kept {i : Instr} {s t : State} (h : exec i s = .next t)
    (hi : i.op ∉ [Op.adds, .subs, .addis, .subis]) : t.flags = s.flags := by
  obtain ⟨e, rfl, he⟩ | ⟨k, info, rfl⟩ := settlesWith_next (h ▸ exec_writes_no_flag i s hi)
  · rw [commit_flags, he, flags_write_none]
  · exact raiseFault_flags ..

/-- Settles O23: `exec_flags_kept`, and for each of the four a result 0 at reset, which sets the flag Z. -/
theorem exactlyFourInstructionsWriteFlags : Obligations.ExactlyFourInstructionsWriteFlags := by
  refine ⟨fun i s t h hi => exec_flags_kept h hi, ?_⟩
  simp only [List.forall_mem_cons, List.not_mem_nil, false_implies, implies_true, and_true]
  exact ⟨⟨.adds 1 2 3, .reset, _, rfl, rfl, by decide⟩, ⟨.subs 1 2 3, .reset, _, rfl, rfl, by decide⟩,
    ⟨.addis 1 2 0, .reset, _, rfl, rfl, by decide⟩, ⟨.subis 1 2 0, .reset, _, rfl, rfl, by decide⟩⟩

/-! ## The program counter -/

/-- The increment of the PC unit, written with numbers (10_state.md R34). -/
theorem pc_add_one (pc : Word) : pc + 1#64 = BitVec.ofNat 64 ((pc.toNat + 1) % 2 ^ 64) :=
  BitVec.eq_of_toNat_eq (by simp)

/-- The PC that an instruction leaves unless it faults: its branch target or `pc + 1` (10_state.md R33). -/
def pcAfter (s : State) (i : Instr) : Word := (branchesTo s i).getD (s.pc + 1#64)

theorem pcAfter_eq_ite {s : State} {i : Instr} {target : Word} {p : Prop} [Decidable p]
    (h : branchesTo s i = if p then some target else none) :
    pcAfter s i = if p then target else s.pc + 1#64 := by
  rw [pcAfter, h]; split <;> rfl

/-- A conditional branch whose condition is the one `branchesTo` writes out leaves `pcAfter` (42_branch.md R203). -/
theorem condBranchStep_settles_pcAfter {s : State} {i : Instr} (c : Cond) {target : Word} {p : Prop} [Decidable p]
    (hc : c.holds s.flags = true ↔ p) (hi : branchesTo s i = if p then some target else none) :
    SettlesWith s (fun e => nextPc s.pc e.pcSrc e.target = pcAfter s i) (condBranchStep c target s) := by
  refine settlesWith_commit (e := condBranchEffects c target s) ?_
  rw [pcAfter_eq_ite hi, ← commit_pc, condBranch_pc]
  exact if_congr hc rfl rfl

/-- CBNZ leaves the target or `pc + 1`, the latter by its own PC mutation (43_cbnz.md R220, R221). -/
theorem cbnzEffects_nextPc (rt : Reg) (target : Word) (s : State) :
    nextPc s.pc (cbnzEffects rt target s).pcSrc (cbnzEffects rt target s).target =
      if s.x rt ≠ 0#64 then target else s.pc + 1#64 := by
  unfold cbnzEffects
  by_cases h : s.x rt = 0#64 <;> simp [h]

/-- The PC select and the target of every instruction give `pcAfter` (10_state.md R33). -/
theorem exec_settles_pcAfter (i : Instr) (s : State) :
    SettlesWith s (fun e => nextPc s.pc e.pcSrc e.target = pcAfter s i) (exec i s) := by
  cases i with
  | add | adds | sub | subs | and | ands | orr | eor | lsl | lsr
  | addi | addis | subi | subis | andi | andis | orri | eori =>
    exact settlesWith_commit (e := aluEffects ..) rfl
  | b => exact settlesWith_commit rfl
  | bEq => exact condBranchStep_settles_pcAfter .eq (by simp [Cond.holds]) rfl
  | bNe => exact condBranchStep_settles_pcAfter .ne (by simp [Cond.holds]) rfl
  | bLt => exact condBranchStep_settles_pcAfter .lt (by simp [Cond.holds]) rfl
  | bLe => exact condBranchStep_settles_pcAfter .le (by simp [Cond.holds, Decidable.imp_iff_not_or]) rfl
  | bGt => exact condBranchStep_settles_pcAfter .gt (by simp [Cond.holds]) rfl
  | bGe => exact condBranchStep_settles_pcAfter .ge (by simp [Cond.holds]) rfl
  | bMi => exact condBranchStep_settles_pcAfter .mi (by simp [Cond.holds]) rfl
  | bPl => exact condBranchStep_settles_pcAfter .pl (by simp [Cond.holds]) rfl
  | bVs => exact condBranchStep_settles_pcAfter .vs (by simp [Cond.holds]) rfl
  | bVc => exact condBranchStep_settles_pcAfter .vc (by simp [Cond.holds]) rfl
  | cbnz rt target => exact settlesWith_commit ((cbnzEffects_nextPc rt target s).trans (pcAfter_eq_ite rfl).symm)
  | ldur | ldurb | ldurh | ldursw => exact loadStep_settlesWith _ _ _ _ _ fun _ => rfl
  | stur | sturb | sturh | sturw => exact storeStep_settlesWith _ _ _ _ fun _ => rfl

/-- A fault keeps the PC; every other outcome of an unhalted state has the PC `pcAfter` (10_state.md R33). -/
theorem exec_pc {i : Instr} {s t : State} (h : exec i s = .next t) (hs : s.fault.faulted = false) :
    t.pc = if t.fault.faulted = true then s.pc else pcAfter s i := by
  obtain ⟨e, rfl, he⟩ | ⟨k, info, rfl⟩ := settlesWith_next (h ▸ exec_settles_pcAfter i s)
  · simp [hs, he]
  · simp

/-- Settles O19: `exec_pc`, with `pcAfter` and the increment of the PC written out. -/
theorem nextPcIsTargetOrPlusOne : Obligations.NextPcIsTargetOrPlusOne := by
  intro i s t h hs
  rw [exec_pc h hs, pcAfter, pc_add_one]
  cases branchesTo s i <;> rfl

end Sys2Proof.Machine
end

section
/-!
The family of 20_memory.md: a read is little-endian (R53), and a read after a write of any width and offset sees the
written bytes inside the write and the old ones outside (R55).
-/

namespace Sys2Proof.Machine

/-- Settles O44: `memRead_byte`, at the lowest and the highest byte for the two instances. -/
theorem readIsLittleEndian : Obligations.ReadIsLittleEndian :=
  fun m ea n => ⟨memRead_byte m ea n, memRead_byte m ea 8 0 (by decide), memRead_byte m ea 8 7 (by decide)⟩

/-- The byte at any address after a write: `memWrite_read_inside` and `memWrite_read_outside` in one equation
(20_memory.md R54). -/
theorem memWrite_read {m : Memory} (h : m.wf) (ea n : Nat) (v : Word) (a : Nat) :
    (memWrite m ea n v).read a =
      if ea ≤ a ∧ a < ea + n then v.extractLsb' (8 * (a - ea)) 8 else m.read a := by
  split
  next hin =>
    have hread := memWrite_read_inside h ea n v (i := a - ea) (by omega)
    rwa [Nat.add_sub_cancel' hin.1] at hread
  next hout => exact memWrite_read_outside m ea n v (by omega)

/-- A read that lies inside the last write is a slice of the written value (20_memory.md R55). -/
theorem memRead_memWrite_inside {m : Memory} (h : m.wf) (ea n : Nat) (v : Word) {d k : Nat} (hk : d + k ≤ n) :
    memRead (memWrite m ea n v) (ea + d) k = v.extractLsb' (8 * d) (8 * k) := by
  refine BitVec.eq_of_getLsbD_eq fun j hj => ?_
  have hbit : 8 * (d + j / 8) + j % 8 = 8 * d + j := by omega
  rw [memRead_getLsbD _ _ _ _ hj, Nat.add_assoc, memWrite_read_inside h ea n v (by omega),
    BitVec.getLsbD_extractLsb', BitVec.getLsbD_extractLsb', hbit]
  simp only [hj, Nat.mod_lt j (show 0 < 8 by decide)]

/-- Settles O47: byte by byte by `memRead_byte` and `memWrite_read`; in the example each read lies inside the write, so
it is a slice of the written constant. -/
theorem mixedWidthsSeeTheLastBytes : Obligations.MixedWidthsSeeTheLastBytes := by
  refine ⟨fun m ea n a k i v hm hi => ?_, fun m a hm => ⟨?_, ?_, ?_⟩⟩
  · rw [memRead_byte _ a k i hi, memWrite_read hm]
  · exact (memRead_memWrite_inside hm a 8 _ (d := 0) (k := 1) (by decide)).trans (by decide)
  · exact (memRead_memWrite_inside hm a 8 _ (d := 6) (k := 2) (by decide)).trans (by decide)
  · exact (memRead_memWrite_inside hm a 8 _ (d := 4) (k := 4) (by decide)).trans (by decide)

end Sys2Proof.Machine
end

section
/-!
The family of 30_encoding.md: the rows of the opcode map (R89, R96), the condition numbers of B.cond (R95), the unused
fields (R97), the branch targets (R92, R93) and operand bundles (R80, R81). A row that accepts a word admits the value
of each field of that word (`admits_of_accepts`), so the opcode field alone rules out the rows of other instructions.
-/

namespace Sys2Proof.Machine

/-! ## The rows of the opcode map -/

/-- The decoder finds exactly the row that the word matches under its mask (30_encoding.md R96). -/
theorem findWord_eq_some_iff_masked {o : Op} {w : Code} : findWord w = some o ↔ w &&& o.mask = o.pattern :=
  findWord_eq_some.trans (accepts_iff o w)

/-- Settles O2: `rows_disjoint`, and the decoder's row or its absence by `findWord_eq_some_iff_masked`. -/
theorem oneRowOrNoneMatches : Obligations.OneRowOrNoneMatches := by
  refine ⟨fun o p => rows_disjoint o (mem_all o) p (mem_all p), fun w => ?_⟩
  cases hw : findWord w with
  | none => exact .inr ⟨fun o ho => by simp [findWord_eq_some_iff_masked.mpr ho] at hw, rfl⟩
  | some o =>
    refine .inl ⟨o, findWord_eq_some_iff_masked.mp hw, rfl, fun p hp => ?_⟩
    exact Option.some.inj ((findWord_eq_some_iff_masked.mpr hp).symm.trans hw)

/-- A row of the opcode map: operation, match, mask (30_encoding.md R96). -/
def opcodeRow (o : Op) : Op × Code × Code := (o, o.pattern, o.mask)

/-- Settles O3: the table written out is the model's own, row by row, and `findWord_eq_some_iff_masked`. -/
theorem opcodeMapDecidesTheWord : Obligations.OpcodeMapDecidesTheWord := by
  intro row hrow w
  obtain ⟨o, -, rfl⟩ : ∃ o ∈ Op.all, opcodeRow o = row := List.mem_map.mp hrow
  exact findWord_eq_some_iff_masked

/-! ## Fields and rows -/

/-- No bit that the row fixes in `word[lo+len-1:lo]` differs from that bit of `c`. -/
def admits (o : Op) (lo : Nat) {len : Nat} (c : BitVec len) : Bool := c &&& bits lo len o.mask == bits lo len o.pattern

/-- The row fixes the whole of `word[lo+len-1:lo]` to zero, as R97 says of an unused field. -/
def wantsZero (o : Op) (lo len : Nat) : Bool :=
  bits lo len o.mask == BitVec.allOnes len && bits lo len o.pattern == 0#len

/-- A row that accepts a word admits the value of every field of it (30_encoding.md R96). -/
theorem admits_of_accepts {o : Op} {w : Code} (h : o.accepts w = true) (lo len : Nat) :
    admits o lo (bits lo len w) = true := by
  rw [admits, beq_iff_eq, ← (accepts_iff o w).mp h, bits, bits, bits, BitVec.extractLsb'_and]

theorem eq_zero_of_wantsZero {o : Op} {lo len : Nat} {c : BitVec len} (hz : wantsZero o lo len = true)
    (h : admits o lo c = true) : c = 0#len := by
  simp only [wantsZero, admits, Bool.and_eq_true, beq_iff_eq] at hz h
  obtain ⟨hmask, hpattern⟩ := hz
  rwa [hmask, hpattern, BitVec.and_allOnes] at h

/-- The word under the mask of one field is that field, shifted to its place. -/
theorem and_fieldMask (lo len : Nat) (w : Code) :
    w &&& (BitVec.allOnes len).setWidth 32 <<< lo = (bits lo len w).setWidth 32 <<< lo := by
  ext i hi
  by_cases hlo : i < lo
  · simp [hlo]
  · simp [bits, hlo, Nat.add_sub_cancel' (Nat.le_of_not_lt hlo), BitVec.getLsbD_eq_getElem hi, Bool.and_comm]

/-- A row whose mask is just an opcode field accepts the words with its opcode (30_encoding.md R96). -/
theorem findWord_of_opcode {o : Op} {w : Code} {lo len : Nat} {c : BitVec len}
    (hm : o.mask = (BitVec.allOnes len).setWidth 32 <<< lo) (hp : o.pattern = c.setWidth 32 <<< lo)
    (hw : bits lo len w = c) : findWord w = some o := by
  rw [findWord_eq_some_iff_masked, hm, hp, and_fieldMask, hw]

theorem decodeWord_eq_none_iff {pc : Word} {w : Code} :
    decodeWord pc w = none ↔ ∀ o : Op, ¬ o.accepts w = true := by
  rw [decodeWord, Option.map_eq_none_iff, findWord_eq_none]

theorem ofWord_op (pc : Word) (w : Code) (o : Op) : (o.ofWord pc w).op = o := by
  cases o <;> rfl

/-- A decoded instruction is read off the word's fields by its own operation (30_encoding.md R99). -/
theorem eq_ofWord_of_decodeWord {pc : Word} {w : Code} {i : Instr} (h : decodeWord pc w = some i) :
    i = i.op.ofWord pc w := by
  obtain ⟨o, -, rfl⟩ := Option.map_eq_some_iff.mp h
  rw [ofWord_op]

/-! ## Condition numbers of B.cond -/

/-- The B.cond word with condition number `c` and offset 0 (30_encoding.md R88, R95). -/
def bcondWord (c : BitVec 5) : Code := encodeCB 0b01010100#8 0#64 c

/-- A row that `admits` the opcode of B.cond fixes the opcode and the condition number, and nothing else. -/
theorem mask_of_bcond_opcode :
    ∀ o ∈ Op.all, admits o 24 0b01010100#8 = true → o.mask = 0xFF00001F#32 := by
  decide

/-- The bits that the mask of the B.cond rows keeps: opcode and condition number (30_encoding.md R88). -/
theorem and_bcondMask {w : Code} (hop : bits 24 8 w = 0b01010100#8) :
    w &&& 0xFF00001F#32 = bcondWord (bits 0 5 w) &&& 0xFF00001F#32 := by
  have hmask : 0xFF00001F#32 =
      (BitVec.allOnes 8).setWidth 32 <<< 24 ||| (BitVec.allOnes 5).setWidth 32 <<< 0 := by decide
  rw [bcondWord, encodeCond_masked, hmask, BitVec.and_or_distrib_left, and_fieldMask, and_fieldMask, hop,
    BitVec.shiftLeft_zero]

theorem bcondWord_opcode : ∀ c : BitVec 5, bits 24 8 (bcondWord c) = 0b01010100#8 := by decide

/-- A row that accepts a B.cond word accepts every B.cond word that agrees with it under the mask of the B.cond rows. -/
theorem accepts_of_bcond_agree {o : Op} {v w : Code} (hv : bits 24 8 v = 0b01010100#8)
    (hagree : v &&& 0xFF00001F#32 = w &&& 0xFF00001F#32) (h : o.accepts v = true) : o.accepts w = true := by
  have hmask := mask_of_bcond_opcode o (mem_all o) (hv ▸ admits_of_accepts h 24 8)
  rwa [accepts_iff, hmask, ← hagree, ← hmask, ← accepts_iff]

/-- The row of a B.cond word depends on its condition number only. -/
theorem findWord_bcond {w : Code} (hop : bits 24 8 w = 0b01010100#8) :
    findWord w = findWord (bcondWord (bits 0 5 w)) := by
  have hiff (o : Op) : o.accepts w = true ↔ o.accepts (bcondWord (bits 0 5 w)) = true :=
    ⟨accepts_of_bcond_agree hop (and_bcondMask hop),
      accepts_of_bcond_agree (bcondWord_opcode _) (and_bcondMask hop).symm⟩
  rw [findWord, findWord, funext fun o => Bool.eq_iff_iff.mpr (hiff o)]

/-- The row of each of the 32 condition numbers, if there is one (30_encoding.md R95). -/
theorem findWord_bcondWord : ∀ c : BitVec 5, findWord (bcondWord c) =
    if c = 0#5 then some .bEq else if c = 1#5 then some .bNe else if c = 4#5 then some .bMi
    else if c = 5#5 then some .bPl else if c = 6#5 then some .bVs else if c = 7#5 then some .bVc
    else if c = 10#5 then some .bGe else if c = 11#5 then some .bLt else if c = 12#5 then some .bGt
    else if c = 13#5 then some .bLe else none := by
  decide

/-- Settles O4: `findWord_bcond` reduces the lookup to the condition number, and `findWord_bcondWord` tabulates it. -/
theorem conditionNumbersOfBcond : Obligations.ConditionNumbersOfBcond := by
  intro pc w hop
  rw [decodeWord, findWord_bcond hop, findWord_bcondWord]
  simp only [apply_ite (Option.map (Op.ofWord pc w))]
  rfl

/-! ## Unused fields -/

/-- Every row that admits the opcode `c` wants zero in the field; a Boolean, for `decide` to run over listed opcodes. -/
def opcodeWantsZero (lo len : Nat) (c : BitVec 11) : Bool :=
  Op.all.all fun o => !admits o 21 c || wantsZero o lo len

/-- A word decodes to nothing if its opcode wants zero in a field that is not zero (30_encoding.md R97). -/
theorem decodeWord_none_of_unused {pc : Word} {w : Code} {lo len : Nat} {opcodes : List (BitVec 11)}
    (hne : bits lo len w ≠ 0#len) (hop : bits 21 11 w ∈ opcodes)
    (hrows : opcodes.all (opcodeWantsZero lo len) = true) : decodeWord pc w = none := by
  refine decodeWord_eq_none_iff.mpr fun o h => hne ?_
  have hrow := List.all_eq_true.mp (List.all_eq_true.mp hrows _ hop) o (mem_all o)
  rw [admits_of_accepts h 21 11, Bool.not_true, Bool.false_or] at hrow
  exact eq_zero_of_wantsZero hrow (admits_of_accepts h lo len)

/-- The bundle decoder, once the mnemonic is found (30_encoding.md R81, R82). -/
theorem decodeBundle_of_known {b : Bundle} {o : Op} (hb : findMnemonic b.mnemonic = some o) :
    decodeBundle b = (o.ofBundle b).elim (.error .invalidOperandBundle) .ok := by
  simp only [decodeBundle, hb]
  cases o.ofBundle b <;> rfl

theorem decodeBundle_congr_of_known {b b' : Bundle} {o : Op} (hb : findMnemonic b.mnemonic = some o)
    (hm : b'.mnemonic = b.mnemonic) (h : o.ofBundle b' = o.ofBundle b) : decodeBundle b' = decodeBundle b := by
  rw [decodeBundle_of_known hb, decodeBundle_of_known (hm ▸ hb), h]

theorem decodeBundle_congr {b b' : Bundle} (hm : b'.mnemonic = b.mnemonic)
    (h : ∀ o : Op, o.ofBundle b' = o.ofBundle b) : decodeBundle b' = decodeBundle b := by
  cases hb : findMnemonic b.mnemonic with
  | none => rw [decodeBundle, decodeBundle, hm, hb]
  | some o => exact decodeBundle_congr_of_known hb hm (h o)

/-- The format of a register operation that is no shift has no immediate (30_encoding.md R80, R81). -/
theorem ofBundle_ignores_imm (b : Bundle) (imm : Option Int) :
    ∀ o ∈ [Op.add, .adds, .sub, .subs, .and, .ands, .orr, .eor],
      o.ofBundle { b with imm := imm } = o.ofBundle b := by
  simp [Op.ofBundle]

/-- The format of a shift has no second source register (30_encoding.md R80, R81). -/
theorem ofBundle_ignores_rm (b : Bundle) (rm : Option Reg) :
    ∀ o ∈ [Op.lsl, .lsr], o.ofBundle { b with rm := rm } = o.ofBundle b := by
  simp [Op.ofBundle, Bundle.shamt]

/-- No format has the discriminator (30_encoding.md R80, 44_data_transfer.md R242). -/
theorem ofBundle_ignores_disc (b : Bundle) (disc : Option (BitVec 2)) (o : Op) :
    o.ofBundle { b with disc := disc } = o.ofBundle b := by
  cases o <;> rfl

/-- Settles O5: the word clauses by `decodeWord_none_of_unused`, the rows of the listed opcodes checked one by one; the
bundle clauses by the fields that the formats do not have. -/
theorem unusedFieldsMustBeZeroInAWord : Obligations.UnusedFieldsMustBeZeroInAWord :=
  ⟨fun _ _ hne hop => decodeWord_none_of_unused hne hop (by decide),
    fun _ _ hne hop => decodeWord_none_of_unused hne hop (by decide),
    fun _ _ hne hop => decodeWord_none_of_unused hne hop (by decide),
    fun b o imm hb ho => decodeBundle_congr_of_known hb rfl (ofBundle_ignores_imm b imm o ho),
    fun b o rm hb ho => decodeBundle_congr_of_known hb rfl (ofBundle_ignores_rm b rm o ho),
    fun b disc => decodeBundle_congr rfl fun o => ofBundle_ignores_disc b disc o⟩

/-! ## Branch targets -/

theorem decodeWord_b {w : Code} (pc : Word) (hop : bits 26 6 w = 0b000101#6) :
    decodeWord pc w = some (.b (branchTarget pc w)) := by
  rw [decodeWord, findWord_of_opcode (o := .b) (by decide) (by decide) hop]; rfl

theorem decodeWord_cbnz {w : Code} (pc : Word) (hop : bits 24 8 w = 0b10110101#8) :
    decodeWord pc w = some (.cbnz (fieldRd w) (condBranchTarget pc w)) := by
  rw [decodeWord, findWord_of_opcode (o := .cbnz) (by decide) (by decide) hop]; rfl

/-- Settles O6: `decodeWord_b`, `decodeWord_cbnz`, and for the B.cond words `eq_ofWord_of_decodeWord`; sign extension is
the signed value modulo 2^64 by its definition. -/
theorem branchWordTargets : Obligations.BranchWordTargets := by
  refine ⟨fun pc w hop => ⟨decodeWord_b pc hop, BitVec.le_toInt _, Int.le_sub_one_of_lt BitVec.toInt_lt⟩,
    fun pc w hop => ⟨decodeWord_cbnz pc hop, BitVec.le_toInt _, Int.le_sub_one_of_lt BitVec.toInt_lt⟩,
    fun pc w target h => ?_⟩
  simp only [List.mem_cons, List.not_mem_nil, or_false] at h
  rcases h with h | h | h | h | h | h | h | h | h | h <;>
    injection eq_ofWord_of_decodeWord h

/-! ## Operand bundles -/

/-- The immediate in range is the signed reading of the 64-bit value that enters (30_encoding.md R81). -/
theorem imm64_eq_some {b : Bundle} {v : Word} : b.imm64 = some v ↔ b.imm = some v.toInt := by
  unfold Bundle.imm64
  cases b.imm with
  | none => simp
  | some k =>
    simp only [Option.ite_none_right_eq_some, Option.some.injEq]
    constructor
    · rintro ⟨hk, rfl⟩
      rw [BitVec.toInt_ofInt_eq_self (by decide) (by omega) (by omega)]
    · rintro rfl
      exact ⟨⟨BitVec.le_toInt v, Int.le_sub_one_of_lt BitVec.toInt_lt⟩, BitVec.ofInt_toInt⟩

/-- The shift amount in range is the number that its 6-bit field holds (30_encoding.md R81). -/
theorem shamt_eq_some {b : Bundle} {sh : BitVec 6} : b.shamt = some sh ↔ b.imm = some (sh.toNat : Int) := by
  unfold Bundle.shamt
  cases b.imm with
  | none => simp
  | some k =>
    simp only [Option.ite_none_right_eq_some, Option.some.injEq]
    constructor
    · rintro ⟨hk, rfl⟩
      rw [BitVec.toNat_ofInt]
      omega
    · rintro rfl
      exact ⟨by omega, by simp⟩

theorem require3_eq_some {α β γ : Type} {f : α → β → γ → Instr} {a : Option α} {b : Option β}
    {c : Option γ} {i : Instr} :
    require3 f a b c = some i ↔ ∃ x y z, (a = some x ∧ b = some y ∧ c = some z) ∧ f x y z = i := by
  cases a <;> cases b <;> cases c <;> simp [require3]

theorem require2_eq_some {α β : Type} {f : α → β → Instr} {a : Option α} {b : Option β} {i : Instr} :
    require2 f a b = some i ↔ ∃ x y, (a = some x ∧ b = some y) ∧ f x y = i := by
  cases a <;> cases b <;> simp [require2]

/-- An operation takes only its own instructions from a bundle. -/
theorem op_of_ofBundle {b : Bundle} {o : Op} {i : Instr} (h : o.ofBundle b = some i) : i.op = o := by
  cases o with
  | add | adds | sub | subs | and | ands | orr | eor | lsl | lsr
  | addi | addis | subi | subis | andi | andis | orri | eori
  | ldur | stur | ldurb | sturb | ldurh | sturh | ldursw | sturw =>
    obtain ⟨_, _, _, -, rfl⟩ := require3_eq_some.mp h
    rfl
  | b | bEq | bNe | bLt | bLe | bGt | bGe | bMi | bPl | bVs | bVc =>
    obtain ⟨_, -, rfl⟩ := Option.map_eq_some_iff.mp h
    rfl
  | cbnz =>
    obtain ⟨_, _, -, rfl⟩ := require2_eq_some.mp h
    rfl

/-- The fields that an operation takes from a bundle are the ones that the bundle carries (30_encoding.md R81). -/
theorem ofBundle_iff_carries {b : Bundle} {i : Instr} : i.op.ofBundle b = some i ↔ carries b i := by
  cases i with
  | add | adds | sub | subs | and | ands | orr | eor =>
    simp [Instr.op, Op.ofBundle, carries, require3_eq_some]
  | lsl | lsr =>
    simp [Instr.op, Op.ofBundle, carries, require3_eq_some, shamt_eq_some]
  | addi | addis | subi | subis | andi | andis | orri | eori
  | ldur | stur | ldurb | sturb | ldurh | sturh | ldursw | sturw =>
    simp [Instr.op, Op.ofBundle, carries, require3_eq_some, imm64_eq_some]
  | b | bEq | bNe | bLt | bLe | bGt | bGe | bMi | bPl | bVs | bVc =>
    simp [Instr.op, Op.ofBundle, carries]
  | cbnz =>
    simp [Instr.op, Op.ofBundle, carries, require2_eq_some]

theorem ofBundle_eq_some {b : Bundle} {o : Op} {i : Instr} :
    o.ofBundle b = some i ↔ i.op = o ∧ carries b i := by
  constructor
  · intro h
    obtain rfl := op_of_ofBundle h
    exact ⟨rfl, ofBundle_iff_carries.mp h⟩
  · rintro ⟨rfl, hc⟩
    exact ofBundle_iff_carries.mpr hc

/-- Settles O8: with the mnemonic found, the decoder answers what `Op.ofBundle` does, which is `ofBundle_eq_some`. -/
theorem bundleNeedsItsFormatsFields : Obligations.BundleNeedsItsFormatsFields := by
  intro b o hb
  simp only [decodeBundle_of_known hb, ← ofBundle_eq_some]
  cases o.ofBundle b <;> simp

end Sys2Proof.Machine
end

section
/-!
The family of 40_arithmetic.md: the overflow check of a subtraction (R125). The literal rule compares signs only
(`vsub_literal_of_sign_eq`, `vsub_literal_of_sign_ne`); `sign_eq_decide` ties a sign to the signed value.
-/

namespace Sys2Proof.Machine

/-- The sign of a value is set exactly when its signed reading is negative (00_scope.md R9). -/
theorem sign_eq_decide (v : Word) : sign v = decide (v.toInt < 0) :=
  (BitVec.msb_eq_getLsbD_last v).symm.trans BitVec.msb_eq_toInt

theorem sign_of_nonneg {v : Word} (h : 0 ≤ v.toInt) : sign v = false := by
  simpa [sign_eq_decide] using h

theorem sign_of_neg {v : Word} (h : v.toInt < 0) : sign v = true := by
  simpa [sign_eq_decide] using h

/-- For operands of one sign the literal rule compares the result's sign with theirs (40_arithmetic.md R123, R125). -/
theorem vsub_literal_of_sign_eq {a b : Word} (r : Word) (h : sign a = sign b) :
    vsub .literal a b r = (nflag r != sign a) := by
  simp [vsub, ovf, nflag, h]

/-- For operands of different signs the literal rule gives 0 (40_arithmetic.md R123, R125). -/
theorem vsub_literal_of_sign_ne {a b : Word} (r : Word) (h : sign a ≠ sign b) :
    vsub .literal a b r = false := by
  simp [vsub, ovf, h]

/-- Only a difference of operands of different signs can leave the signed range. -/
theorem sign_ne_of_sub_overflows {a b : Word}
    (h : a.toInt - b.toInt < -(2 ^ 63) ∨ 2 ^ 63 ≤ a.toInt - b.toInt) : sign a ≠ sign b := by
  have ha_lo : -(2 ^ 63) ≤ a.toInt := BitVec.le_toInt a
  have ha_hi : a.toInt < 2 ^ 63 := BitVec.toInt_lt
  have hb_lo : -(2 ^ 63) ≤ b.toInt := BitVec.le_toInt b
  have hb_hi : b.toInt < 2 ^ 63 := BitVec.toInt_lt
  rw [sign_eq_decide, sign_eq_decide, Ne, decide_eq_decide]
  omega

/-- Settles O27: both formulas are the definition of `vsub`; the consequences of the literal rule are its two cases, by
the signs of the operands. -/
theorem subtractionOverflowRules : Obligations.SubtractionOverflowRules := by
  refine ⟨fun a b r => ⟨rfl, rfl⟩, fun a b => ⟨fun hv => ?_, fun hov => ?_, fun ha hb => ?_, fun ha hb => ?_,
    vsub_literal_of_sign_ne _⟩⟩
  · by_contra hne
    exact Bool.false_ne_true ((vsub_literal_of_sign_ne _ hne).symm.trans hv)
  · exact vsub_literal_of_sign_ne _ (sign_ne_of_sub_overflows hov)
  · have hsign : sign a = sign b := by rw [sign_of_nonneg ha, sign_of_nonneg hb]
    rw [vsub_literal_of_sign_eq _ hsign, sign_of_nonneg ha, Bool.bne_false]
  · have hsign : sign a = sign b := by rw [sign_of_neg ha, sign_of_neg hb]
    rw [vsub_literal_of_sign_eq _ hsign, sign_of_neg ha, Bool.bne_true]

end Sys2Proof.Machine
end

section
/-!
The family of 42_branch.md: the conditional branches (R193 to R203). The ten differ only in the condition they read, so
one lemma over the condition (`condBranchStep_eq_of_holds_iff`) gives the next state of each; their rows differ only in
the condition number, which a matching word repeats (`bits_eq_of_accepts`).
-/

namespace Sys2Proof.Machine

/-- A conditional branch changes the PC and nothing else (42_branch.md R203). -/
theorem commit_condBranchEffects (c : Cond) (target : Word) (s : State) :
    commit s (condBranchEffects c target s) =
      { s with pc := if c.holds s.flags then target else s.pc + 1#64 } := by
  rw [← condBranch_pc, commit, condBranchEffects_wflag, condBranchEffects_wmem]
  unfold condBranchEffects
  split <;> rfl

/-- The step of a conditional branch, by any proposition that says when its condition holds (42_branch.md R203). -/
theorem condBranchStep_eq_of_holds_iff {s : State} (c : Cond) {target : Word} {p : Prop} [Decidable p]
    (hc : c.holds s.flags = true ↔ p) :
    condBranchStep c target s = .next { s with pc := if p then target else s.pc + 1#64 } := by
  rw [condBranchStep_eq, commit_condBranchEffects]
  simp only [hc]

/-- A field that a row fixes whole has the row's value in every word the row accepts (30_encoding.md R96). -/
theorem bits_eq_of_accepts {o : Op} {w : Code} {lo len : Nat} (hm : bits lo len o.mask = BitVec.allOnes len)
    (h : o.accepts w = true) : bits lo len w = bits lo len o.pattern := by
  simpa [admits, hm] using admits_of_accepts h lo len

/-- The words of a B.cond row: those with its match under the B.cond mask, which all carry its condition number
(30_encoding.md R88, R95). -/
theorem findWord_eq_some_iff_bcond {o : Op} {w : Code} (ho : admits o 24 0b01010100#8 = true) :
    findWord w = some o ↔ w &&& 0xFF00001F#32 = o.pattern ∧ bits 0 5 w = bits 0 5 o.pattern := by
  have hmask : o.mask = 0xFF00001F#32 := mask_of_bcond_opcode o (mem_all o) ho
  have hcond : bits 0 5 o.mask = BitVec.allOnes 5 := by rw [hmask]; decide
  rw [← hmask, ← accepts_iff, findWord_eq_some]
  exact ⟨fun h => ⟨h, bits_eq_of_accepts hcond h⟩, And.left⟩

/-- A row of the B.cond table: operation, match, condition number (42_branch.md R193 to R202). -/
def bcondRow (o : Op) : Op × Code × BitVec 5 := (o, o.pattern, bits 0 5 o.pattern)

/-- Settles O35: each next state by `condBranchStep_eq_of_holds_iff` with the condition written out; the table holds the
rows that admit the opcode of B.cond, and `findWord_eq_some_iff_bcond` decides their words. -/
theorem conditionalBranchResults : Obligations.ConditionalBranchResults := by
  refine ⟨fun s target => ?_, fun row hrow w => ?_⟩
  · exact ⟨condBranchStep_eq_of_holds_iff .eq (by simp [Cond.holds]),
      condBranchStep_eq_of_holds_iff .ne (by simp [Cond.holds]),
      condBranchStep_eq_of_holds_iff .lt (by simp [Cond.holds]),
      condBranchStep_eq_of_holds_iff .le (by simp [Cond.holds, Decidable.imp_iff_not_or]),
      condBranchStep_eq_of_holds_iff .gt (by simp [Cond.holds]),
      condBranchStep_eq_of_holds_iff .ge (by simp [Cond.holds]),
      condBranchStep_eq_of_holds_iff .mi (by simp [Cond.holds]),
      condBranchStep_eq_of_holds_iff .pl (by simp [Cond.holds]),
      condBranchStep_eq_of_holds_iff .vs (by simp [Cond.holds]),
      condBranchStep_eq_of_holds_iff .vc (by simp [Cond.holds])⟩
  · obtain ⟨o, ho, rfl⟩ : ∃ o ∈ Op.all.filter (admits · 24 0b01010100#8), bcondRow o = row := List.mem_map.mp hrow
    exact findWord_eq_some_iff_bcond (List.mem_filter.mp ho).2

end Sys2Proof.Machine
end

section
/-!
The family of 43_cbnz.md: CBNZ (R220, R221). Its effects write no register, flag or memory byte, so its next state is the
old one with the PC that its own mutation gives (`cbnzEffects_nextPc`); the PC selects of CBNZ and of a conditional
branch say who makes the mutation.
-/

namespace Sys2Proof.Machine

/-- Effects that write no register, flag or memory byte commit a new PC alone (10_state.md R38). -/
theorem commit_eq_of_no_write {s : State} {e : Effects} (hreg : e.wreg = none) (hflag : e.wflag = FlagWrite.none)
    (hmem : e.wmem = none) : commit s e = { s with pc := nextPc s.pc e.pcSrc e.target } := by
  rw [commit, hreg, hflag, hmem, flags_write_none, commitRegs_none, commitMem_none]

theorem cbnzEffects_wreg (rt : Reg) (target : Word) (s : State) : (cbnzEffects rt target s).wreg = none := by
  unfold cbnzEffects; split <;> rfl

/-- CBNZ commits in every state, and changes the PC and nothing else (43_cbnz.md R220). -/
theorem exec_cbnz (rt : Reg) (target : Word) (s : State) :
    exec (.cbnz rt target) s = .next { s with pc := if s.x rt ≠ 0#64 then target else s.pc + 1#64 } :=
  calc exec (.cbnz rt target) s
    _ = .next (commit s (cbnzEffects rt target s)) := rfl
    _ = .next { s with pc := if s.x rt ≠ 0#64 then target else s.pc + 1#64 } := by
      rw [commit_eq_of_no_write (cbnzEffects_wreg ..) (cbnzEffects_wflag ..) (cbnzEffects_wmem ..), cbnzEffects_nextPc]

/-- CBNZ never leaves the PC to the driver: not taken, it advances by itself (43_cbnz.md R221). -/
theorem cbnzEffects_pcSrc (rt : Reg) (target : Word) (s : State) :
    (cbnzEffects rt target s).pcSrc = if s.x rt ≠ 0#64 then .instrTarget else .instrDefault := by
  unfold cbnzEffects
  by_cases h : s.x rt = 0#64 <;> simp [h]

/-- A conditional branch that is not taken leaves the PC to the driver (42_branch.md R203). -/
theorem condBranchEffects_pcSrc (c : Cond) (target : Word) (s : State) :
    (condBranchEffects c target s).pcSrc = if c.holds s.flags = true then .instrTarget else .driverDefault := by
  unfold condBranchEffects; split <;> rfl

/-- Settles O36: the next state by `exec_cbnz`, and the PC selects of CBNZ and of every conditional branch. -/
theorem cbnzMutatesThePcOnce : Obligations.CbnzMutatesThePcOnce :=
  fun s rt target => ⟨exec_cbnz rt target s, cbnzEffects_pcSrc rt target s,
    fun c => condBranchEffects_pcSrc c target s⟩

end Sys2Proof.Machine
end

section
/-!
The family of 60_exceptions.md: which faults a step can raise, in which order (R271 to R276), and how a run rests after
one (R278). Decode faults come from `step_of_decode_error`; an instruction without a data access commits
(`exec_commits_of_no_access`); a data transfer does what the LSU check of its access says (`exec_checksAccess`).
-/

namespace Sys2Proof.Machine

/-! ## Decode faults -/

/-- A fetched slot that does not decode raises the fault of its decoding (10_state.md R38). -/
theorem step_of_decode_error {s : State} {slot : Slot} {d : DecodeFault} (hf : s.fault.faulted = false)
    (hs : fetch s = some slot) (hd : decodeSlot s.pc slot = .error d) :
    step s = .next (raiseFault (decodeFaultEntry d).1 (decodeFaultEntry d).2 s) :=
  calc step s
    _ = settle s (.error (decodeFaultEntry d)) := by simp [step, hf, hs, runSlot, hd]
    _ = .next (raiseFault (decodeFaultEntry d).1 (decodeFaultEntry d).2 s) := rfl

/-- A word that matches no row is an unknown mnemonic, with the word as info (60_exceptions.md R271). -/
theorem decodeSlot_word_of_illegal {w : Code} (pc : Word) (h : findWord w = none) :
    decodeSlot pc (.word w) = .error (.unknownMnemonic (w.setWidth 64)) := by
  simp [decodeSlot, decodeWord, h]

/-- A word that matches a row decodes, so it cannot be an invalid bundle (60_exceptions.md R272). -/
theorem decodeSlot_word_of_row {w : Code} {o : Op} (pc : Word) (h : findWord w = some o) :
    decodeSlot pc (.word w) = .ok (o.ofWord pc w) := by
  simp [decodeSlot, decodeWord, h]

/-- A bundle whose mnemonic is not in the catalog is an unknown mnemonic, whatever its fields (60_exceptions.md R271). -/
theorem decodeSlot_bundle_of_unknown {b : Bundle} (pc : Word) (h : findMnemonic b.mnemonic = none) :
    decodeSlot pc (.bundle b) = .error (.unknownMnemonic 0#64) := by
  simp [decodeSlot, decodeBundle, h]

/-- A bundle that carries no instruction of its mnemonic is invalid (60_exceptions.md R272). -/
theorem decodeSlot_bundle_of_not_carries {b : Bundle} {o : Op} (pc : Word) (h : findMnemonic b.mnemonic = some o)
    (hc : ¬ ∃ i : Instr, i.op = o ∧ carries b i) : decodeSlot pc (.bundle b) = .error .invalidOperandBundle := by
  have hnone : o.ofBundle b = none :=
    Option.eq_none_iff_forall_ne_some.mpr fun i hi => hc ⟨i, ofBundle_eq_some.mp hi⟩
  rw [decodeSlot, decodeBundle_of_known h, hnone, Option.elim_none]

/-- Settles O14: the decoding of each kind of slot, and `step_of_decode_error` where it is a fault. -/
theorem decodeFaultsAreRecorded : Obligations.DecodeFaultsAreRecorded := by
  intro s slot hf hs
  refine ⟨?word_illegal, ?word_row, ?mnemonic_unknown, ?bundle_invalid⟩
  case word_illegal =>
    rintro w rfl hw
    exact step_of_decode_error hf hs (decodeSlot_word_of_illegal _ hw)
  case word_row =>
    rintro w o rfl hw
    exact ⟨_, decodeSlot_word_of_row _ hw⟩
  case mnemonic_unknown =>
    rintro b rfl hb
    exact step_of_decode_error hf hs (decodeSlot_bundle_of_unknown _ hb)
  case bundle_invalid =>
    rintro b o rfl hb hc
    exact step_of_decode_error hf hs (decodeSlot_bundle_of_not_carries _ hb hc)

/-! ## Instructions without a data access -/

/-- An instruction that makes no data access commits its effects in every state (60_exceptions.md R275). -/
theorem exec_commits_of_no_access {i : Instr} (s : State) (h : dataAccess i = none) :
    ∃ e, exec i s = .next (commit s e) := by
  cases i with
  | add | adds | sub | subs | and | ands | orr | eor | lsl | lsr
  | addi | addis | subi | subis | andi | andis | orri | eori => exact ⟨aluEffects .., rfl⟩
  | b => exact ⟨_, rfl⟩
  | bEq | bNe | bLt | bLe | bGt | bGe | bMi | bPl | bVs | bVc => exact ⟨condBranchEffects .., rfl⟩
  | cbnz => exact ⟨cbnzEffects .., rfl⟩
  | ldur | stur | ldurb | sturb | ldurh | sturh | ldursw | sturw => simp [dataAccess] at h

/-- Settles O20: a commit keeps the fault record. -/
theorem onlyDataTransfersFault : Obligations.OnlyDataTransfersFault := by
  intro i s h
  obtain ⟨e, he⟩ := exec_commits_of_no_access s h
  exact ⟨commit s e, he, commit_fault s e⟩

/-! ## Data transfers -/

/-- An access past the end of memory fails the range check, aligned or not (60_exceptions.md R273, R276). -/
theorem lsCheck_of_outOfRange {cfg : Config} {ea : Word} {size : LsSize}
    (h : cfg.memSize < ea.toNat + size.bytes) : lsCheck cfg ea size = some .addressOutOfRange := by
  have hrange : inRange cfg ea size.bytes = false := by
    rw [Bool.eq_false_iff, Ne, inRange_iff, Config.memBase]
    omega
  rw [lsCheck, if_pos hrange]

/-- An access within memory is in range, since memory begins at address 0 (20_memory.md R51). -/
theorem inRange_of_le {cfg : Config} {ea : Word} {n : Nat} (h : ea.toNat + n ≤ cfg.memSize) :
    inRange cfg ea n = true := by
  rw [inRange_iff, Config.memBase]
  omega

/-- An access in range fails the alignment check where that is enforced (60_exceptions.md R274). -/
theorem lsCheck_of_misaligned {cfg : Config} {ea : Word} {size : LsSize} (hr : ea.toNat + size.bytes ≤ cfg.memSize)
    (hc : cfg.alignCheck = true) (hm : ea.toNat % size.bytes ≠ 0) :
    lsCheck cfg ea size = some .addressMisaligned := by
  simp [lsCheck, inRange_of_le hr, misaligned_iff.mpr ⟨hc, hm⟩]

/-- An access that is allowed passes the LSU check (20_memory.md R62). -/
theorem lsCheck_of_allowed {s : State} {ea : Word} {size : LsSize} (h : accessAllowed s ea size.bytes) :
    lsCheck s.cfg ea size = none := by
  obtain ⟨hr, ha⟩ := h
  refine lsCheck_eq_none.mpr ⟨inRange_of_le hr, ?_⟩
  rw [Bool.eq_false_iff, Ne, misaligned_iff]
  exact fun ⟨hc, hm⟩ => hm (ha hc)

/-- The outcome at `s` is what the LSU check says of an access of this size at `ea`: its fault, with `ea` as info, or a
commit (44_data_transfer.md R231). -/
def ChecksAccess (s : State) (ea : Word) (size : LsSize) (o : Host.Outcome State Fault Refusal) : Prop :=
  ∃ e : Effects, o = .next ((lsCheck s.cfg ea size).elim (commit s e) fun k => raiseFault k ea s)

theorem loadStep_checksAccess (size : LsSize) (sext : Bool) (rt rn : Reg) (imm : Word) (s : State) :
    ChecksAccess s (effectiveAddress s rn imm) size (loadStep size sext rt rn imm s) := by
  refine ⟨{ wreg := some (rt, lsLoad s.mem (effectiveAddress s rn imm) size sext) }, ?_⟩
  rw [loadStep_eq]
  cases lsCheck s.cfg (effectiveAddress s rn imm) size <;> rfl

theorem storeStep_checksAccess (size : LsSize) (rt rn : Reg) (imm : Word) (s : State) :
    ChecksAccess s (effectiveAddress s rn imm) size (storeStep size rt rn imm s) := by
  refine ⟨{ wmem := some (lsStore (effectiveAddress s rn imm) size (s.x rt)) }, ?_⟩
  rw [storeStep_eq]
  cases lsCheck s.cfg (effectiveAddress s rn imm) size <;> rfl

/-- An instruction with a data access checks just that access (44_data_transfer.md R230, R231). -/
theorem exec_checksAccess {i : Instr} {rn : Reg} {imm : Word} {n : Nat} (s : State)
    (h : dataAccess i = some (rn, imm, n)) :
    ∃ size : LsSize, ChecksAccess s (effectiveAddress s rn imm) size (exec i s) ∧ size.bytes = n := by
  cases i with
  | ldur | ldurb | ldurh | ldursw => cases h; exact ⟨_, loadStep_checksAccess .., rfl⟩
  | stur | sturb | sturh | sturw => cases h; exact ⟨_, storeStep_checksAccess .., rfl⟩
  | _ => simp [dataAccess] at h

/-- Settles O40: `exec_checksAccess`, with the LSU check's answer in each of the three cases. -/
theorem dataTransferFaults : Obligations.DataTransferFaults := by
  intro i s rn imm n h
  obtain ⟨size, ⟨e, hexec⟩, rfl⟩ := exec_checksAccess s h
  refine ⟨fun hr => ?_, fun hr hc hm => ⟨?_, ?_⟩, fun ha => ⟨commit s e, ?_, commit_fault s e⟩⟩
  · rw [hexec, lsCheck_of_outOfRange hr]; rfl
  · rw [hexec, lsCheck_of_misaligned hr hc hm]; rfl
  · intro h1
    exact hm (h1 ▸ Nat.mod_one _)
  · rw [hexec, lsCheck_of_allowed ha]; rfl

/-! ## One fault per step, and the rest after it -/

/-- Settles O18: a decode fault is recorded by `step_of_decode_error`; a decoded instruction runs, and its record is that
of `onlyDataTransfersFault` or of the first clause of `dataTransferFaults` that applies. -/
theorem faultsFollowTheirPriority : Obligations.FaultsFollowTheirPriority := by
  intro s slot hf hs
  cases hd : decodeSlot s.pc slot with
  | error d =>
    refine ⟨_, step_of_decode_error hf hs hd, ?_⟩
    cases d <;> rfl
  | ok i =>
    rw [step_of_decode hf hs hd]
    cases ha : dataAccess i with
    | none => simpa [ha] using onlyDataTransfersFault i s ha
    | some access =>
      obtain ⟨rn, imm, n⟩ := access
      obtain ⟨hrange, halign, hallowed⟩ := dataTransferFaults i s rn imm n ha
      simp only [ha]
      split
      case isTrue hr => exact ⟨_, hrange hr, rfl⟩
      case isFalse hr =>
        have hr' := Nat.le_of_not_lt hr
        split
        case isTrue hm => exact ⟨_, (halign hr' hm.1 hm.2).1, rfl⟩
        case isFalse hm => exact hallowed ⟨hr', fun hc => not_not.mp fun h => hm ⟨hc, h⟩⟩

/-- A state halted by a fault has no step (60_exceptions.md R278). -/
theorem step_of_faulted {s : State} (h : s.fault.faulted = true) : step s = .fault .haltedByFault :=
  if_pos h

/-- A run from a state that cannot step stops at once. -/
theorem run_succ_of_step_fault {M : Host.Core} {s : M.State} {r : M.Fault} (k : Nat) (h : M.step s = .fault r) :
    M.run (k + 1) s = .fault r := by
  rw [Host.Core.run, h]

/-- An instruction keeps the fault record or ends faulted (60_exceptions.md R278). -/
theorem exec_fault {i : Instr} {s t : State} (h : exec i s = .next t) : t.fault = s.fault ∨ t.fault.faulted = true := by
  obtain ⟨e, he, -⟩ | ⟨k, ea, hk, -⟩ := h ▸ exec_cases i s
  · cases he
    exact .inl (commit_fault s e)
  · cases hk
    exact .inr rfl

/-- Settles O17: `step_of_faulted` for runs, `exec_fault` for instructions, the record after a reset, and the condition
of a faulted state. -/
theorem onlyResetClearsTheRecord : Obligations.OnlyResetClearsTheRecord := by
  refine ⟨fun s k h => run_succ_of_step_fault k (step_of_faulted h), fun i s t => exec_fault,
    fun s init => applyReset_fault s init, fun s h => ?_⟩
  rw [State.condition, if_pos h]
  decide

end Sys2Proof.Machine
end

section
/-!
The family of 70_reset_and_hazards.md: the three conditions of a run (R303) and what a reset leaves (R300). Each condition
has two rules, one for `State.condition` and one for `step`; a state is in the first that applies.
-/

namespace Sys2Proof.Machine

/-! ## The conditions of a run -/

section
variable {s : State}

theorem condition_of_faulted (hf : s.fault.faulted = true) : s.condition = .haltedByFault :=
  if_pos hf

theorem condition_of_pc_lt (hf : s.fault.faulted = false) (hpc : s.pc.toNat < s.program.length) :
    s.condition = .ableToStep := by
  simp [State.condition, hf, hpc]

theorem condition_of_length_le (hf : s.fault.faulted = false) (hpc : s.program.length ≤ s.pc.toNat) :
    s.condition = .endedNormally := by
  simp [State.condition, hf, Nat.not_lt.mpr hpc]

/-- An instruction has a next state everywhere: its faults are next states too (60_exceptions.md R277). -/
theorem exec_has_next (i : Instr) (s : State) : ∃ t, exec i s = .next t := by
  obtain ⟨e, he, -⟩ | ⟨k, ea, hk, -⟩ := exec_cases i s
  · exact ⟨_, he⟩
  · exact ⟨_, hk⟩

/-- A state that is not halted, with its PC in the program, has a step: a fetched slot that does not decode steps to a
recorded fault (10_state.md R38). -/
theorem step_of_pc_lt (hf : s.fault.faulted = false) (hpc : s.pc.toNat < s.program.length) :
    ∃ t, step s = .next t := by
  have hs : fetch s = some s.program[s.pc.toNat] := List.getElem?_eq_getElem hpc
  cases hd : decodeSlot s.pc s.program[s.pc.toNat] with
  | error d => exact ⟨_, step_of_decode_error hf hs hd⟩
  | ok i => rw [step_of_decode hf hs hd]; exact exec_has_next i s

/-- Past the end of the program the fetch finds no instruction (70_reset_and_hazards.md R303). -/
theorem step_of_length_le (hf : s.fault.faulted = false) (hpc : s.program.length ≤ s.pc.toNat) :
    step s = .fault .endOfProgram := by
  have hs : fetch s = none := List.getElem?_eq_none hpc
  simp [step, hf, hs]

end

/-- Settles O15: in each of the three cases, fault, PC in the program, PC past its end, the rule for the condition and the
rule for the step decide all six clauses. -/
theorem runIsInOneOfThreeConditions : Obligations.RunIsInOneOfThreeConditions := by
  intro s
  cases hf : s.fault.faulted with
  | true => simp [condition_of_faulted hf, step_of_faulted hf]
  | false =>
    obtain hpc | hpc := Nat.lt_or_ge s.pc.toNat s.program.length
    · obtain ⟨t, ht⟩ := step_of_pc_lt hf hpc
      simp [condition_of_pc_lt hf hpc, ht, hpc]
    · simp [condition_of_length_le hf hpc, step_of_length_le hf hpc, hpc]

/-! ## Reset -/

/-- A reset clears the record and puts the PC at 0, so only an empty program ends at once (70_reset_and_hazards.md R300). -/
theorem applyReset_condition (init : InitValues) (s : State) :
    (applyReset init s).condition = if s.program = [] then .endedNormally else .ableToStep := by
  have hf : (applyReset init s).fault.faulted = false := rfl
  split
  case isTrue hp => exact condition_of_length_le hf (by simp [hp])
  case isFalse hp => exact condition_of_pc_lt hf (List.length_pos_of_ne_nil hp)

/-- Settles O48: the registers by `applyReset_x`, or by `x_zero_of_hardwired` at register 31; the other fields are those of
`applyReset`, and the condition is `applyReset_condition`. -/
theorem resetLeavesTheResetValues : Obligations.ResetLeavesTheResetValues := by
  refine fun s init => ⟨fun r => ?registers, applyReset_flags s init, applyReset_pc s init, applyReset_mem s init,
    applyReset_fault s init, applyReset_program s init, applyReset_cfg s init, applyReset_condition init s⟩
  case registers =>
    split
    case isTrue hr =>
      obtain ⟨hw, rfl⟩ := hr
      exact x_zero_of_hardwired _ hw
    case isFalse hr => exact applyReset_x init s r hr

end Sys2Proof.Machine
end

section
/-!
The family of the round trips between instructions and their two inputs (30_encoding.md R80 to R99). Encoding and
decoding agree field by field: `ofWord_encode` reads a well-formed instruction back from the fields of its word,
`encode_ofWord` puts a word that a row accepts together again from its fields. Both split the 38 operations by their
format only.
-/

namespace Sys2Proof.Machine

/-! ## From the instruction to its word and back -/

section
variable {pc target imm : Word}

/-- An immediate in range survives its 12-bit field (30_encoding.md R90). -/
theorem fieldAluImm_encodeI {op : BitVec 10} {rn rd : Reg} (h : aluImmFits imm = true) :
    fieldAluImm (encodeI op imm rn rd) = imm := by
  rw [fieldAluImm, encodeI_imm]
  exact signExtend_of_fits (by decide) (by decide) h

/-- An offset in range survives its 9-bit field (30_encoding.md R91). -/
theorem fieldDtOffset_encodeD {op : BitVec 11} {rn rt : Reg} (h : dtOffsetFits imm = true) :
    fieldDtOffset (encodeD op imm rn rt) = imm := by
  rw [fieldDtOffset, encodeD_imm]
  exact signExtend_of_fits (by decide) (by decide) h

/-- A target in range of B is read back at the same PC (30_encoding.md R92). -/
theorem branchTarget_encodeB {op : BitVec 6} (h : branchFits pc target = true) :
    branchTarget pc (encodeB op (target - pc)) = target := by
  rw [branchTarget, encodeB_offset, signExtend_of_fits (by decide) (by decide) h]
  exact add_sub_cancel pc target

/-- A target in range of B.cond and CBNZ is read back at the same PC (30_encoding.md R93). -/
theorem condBranchTarget_encodeCB {op : BitVec 8} {rt : BitVec 5} (h : condBranchFits pc target = true) :
    condBranchTarget pc (encodeCB op (target - pc) rt) = target := by
  rw [condBranchTarget, encodeCB_offset, signExtend_of_fits (by decide) (by decide) h]
  exact add_sub_cancel pc target

end

/-- The fields of a well-formed instruction's word give the instruction back (30_encoding.md R84 to R94). -/
theorem ofWord_encode {pc : Word} {i : Instr} (h : i.wellFormed pc = true) : i.op.ofWord pc (encode pc i) = i := by
  cases i with
  | add | adds | sub | subs | and | ands | orr | eor =>
    simp only [Instr.op, Op.ofWord, encode, encodeR_rd, encodeR_rn, encodeR_rm]
  | lsl | lsr => simp only [Instr.op, Op.ofWord, encode, encodeR_rd, encodeR_rn, encodeR_shamt]
  | addi | addis | subi | subis | andi | andis | orri | eori =>
    simp only [Instr.op, Op.ofWord, encode, encodeI_rd, encodeI_rn, fieldAluImm_encodeI h]
  | b => simp only [Instr.op, Op.ofWord, encode, branchTarget_encodeB h]
  | bEq | bNe | bLt | bLe | bGt | bGe | bMi | bPl | bVs | bVc =>
    simp only [Instr.op, Op.ofWord, encode, condBranchTarget_encodeCB h]
  | cbnz => simp only [Instr.op, Op.ofWord, encode, encodeCB_rt, condBranchTarget_encodeCB h]
  | ldur | stur | ldurb | sturb | ldurh | sturh | ldursw | sturw =>
    simp only [Instr.op, Op.ofWord, encode, encodeD_rt, encodeD_rn, fieldDtOffset_encodeD h]

/-- Settles O9: the row of the encoded word is the instruction's own (`encode_matches_row`), and `ofWord_encode`. -/
theorem decodeOfEncode : Obligations.DecodeOfEncode := by
  intro pc i h
  rw [decodeWord, findWord_eq_some.mpr (Laws.encode_matches_row i pc), Option.map_some, ofWord_encode h]

/-! ## From the word to its instruction and back -/

theorem setWidth_signExtend_self {n : Nat} (hn : n ≤ 64) (x : BitVec n) : (x.signExtend 64).setWidth n = x := by
  ext i hi
  simp [BitVec.getElem_signExtend, hi, show i < 64 by omega]

/-- A sign-extended field is in the signed range of the field (30_encoding.md R90 to R93). -/
theorem fitsSigned_signExtend {n : Nat} (hn : n ≤ 64) (x : BitVec n) : fitsSigned n (x.signExtend 64) = true := by
  rw [fitsSigned, BitVec.toInt_signExtend_of_le hn, Bool.and_eq_true, decide_eq_true_eq, decide_eq_true_eq]
  exact ⟨BitVec.le_toInt x, BitVec.toInt_lt⟩

section
variable (w : Code)

/-- A word is its R-format fields put together (30_encoding.md R84). -/
theorem encodeR_fields : encodeR (bits 21 11 w) (fieldRm w) (fieldShamt w) (fieldRn w) (fieldRd w) = w := by
  simp only [encodeR, fieldRm, fieldShamt, fieldRn, fieldRd, bits, BitVec.extractLsb'_append_extractLsb'_eq_extractLsb']
  exact BitVec.extractLsb'_eq_self

/-- A word is its I-format fields put together (30_encoding.md R85). -/
theorem encodeI_fields : encodeI (bits 22 10 w) (fieldAluImm w) (fieldRn w) (fieldRd w) = w := by
  have himm : (fieldAluImm w).setWidth 12 = bits 10 12 w := setWidth_signExtend_self (by decide) _
  simp only [encodeI, himm, fieldRn, fieldRd, bits, BitVec.extractLsb'_append_extractLsb'_eq_extractLsb']
  exact BitVec.extractLsb'_eq_self

/-- A word whose bits 11 and 10 are zero is its D-format fields put together (30_encoding.md R86). -/
theorem encodeD_fields (hop : bits 10 2 w = 0#2) :
    encodeD (bits 21 11 w) (fieldDtOffset w) (fieldRn w) (fieldRd w) = w := by
  have himm : (fieldDtOffset w).setWidth 9 = bits 12 9 w := setWidth_signExtend_self (by decide) _
  simp only [encodeD, himm, ← hop, fieldRn, fieldRd, bits, BitVec.extractLsb'_append_extractLsb'_eq_extractLsb']
  exact BitVec.extractLsb'_eq_self

/-- A word is its B-format fields put together (30_encoding.md R87). -/
theorem encodeB_fields (pc : Word) : encodeB (bits 26 6 w) (branchTarget pc w - pc) = w := by
  have hoff : (branchTarget pc w - pc).setWidth 26 = bits 0 26 w := by
    rw [branchTarget, add_sub_cancel_left]
    exact setWidth_signExtend_self (by decide) _
  simp only [encodeB, hoff, bits, BitVec.extractLsb'_append_extractLsb'_eq_extractLsb']
  exact BitVec.extractLsb'_eq_self

/-- A word is its CB-format fields put together (30_encoding.md R88). -/
theorem encodeCB_fields (pc : Word) : encodeCB (bits 24 8 w) (condBranchTarget pc w - pc) (bits 0 5 w) = w := by
  have hoff : (condBranchTarget pc w - pc).setWidth 19 = bits 5 19 w := by
    rw [condBranchTarget, add_sub_cancel_left]
    exact setWidth_signExtend_self (by decide) _
  simp only [encodeCB, hoff, bits, BitVec.extractLsb'_append_extractLsb'_eq_extractLsb']
  exact BitVec.extractLsb'_eq_self

end

/-- The row fixes the whole of `word[lo+len-1:lo]` to `c`: an opcode, a condition number, or the zero of R97. -/
def fixes (o : Op) (lo : Nat) {len : Nat} (c : BitVec len) : Bool :=
  bits lo len o.mask == BitVec.allOnes len && bits lo len o.pattern == c

/-- A word that a row accepts has in a fixed field what the row fixes it to (30_encoding.md R96). -/
theorem bits_eq_of_fixes {o : Op} {w : Code} {lo len : Nat} {c : BitVec len} (hf : fixes o lo c = true)
    (h : o.accepts w = true) : bits lo len w = c := by
  simp only [fixes, Bool.and_eq_true, beq_iff_eq] at hf
  exact (bits_eq_of_accepts hf.1 h).trans hf.2

section
variable {o : Op} {w : Code}

/-- The word of a three-register row, from its fields and the row's opcode (30_encoding.md R84, R97). -/
theorem encodeR_of_accepts {op : BitVec 11} (h : o.accepts w = true) (hop : fixes o 21 op = true)
    (hsh : fixes o 10 0#6 = true) : encodeR op (fieldRm w) 0#6 (fieldRn w) (fieldRd w) = w := by
  rw [← bits_eq_of_fixes hop h, ← bits_eq_of_fixes hsh h]
  exact encodeR_fields w

/-- The word of a shift row, from its fields and the row's opcode (30_encoding.md R84, R94, R97). -/
theorem encodeShift_of_accepts {op : BitVec 11} (h : o.accepts w = true) (hop : fixes o 21 op = true)
    (hrm : fixes o 16 0#5 = true) : encodeR op 0#5 (fieldShamt w) (fieldRn w) (fieldRd w) = w := by
  rw [← bits_eq_of_fixes hop h, ← bits_eq_of_fixes hrm h]
  exact encodeR_fields w

/-- The word of an immediate row, from its fields and the row's opcode (30_encoding.md R85). -/
theorem encodeI_of_accepts {op : BitVec 10} (h : o.accepts w = true) (hop : fixes o 22 op = true) :
    encodeI op (fieldAluImm w) (fieldRn w) (fieldRd w) = w := by
  rw [← bits_eq_of_fixes hop h, encodeI_fields]

/-- The word of a data-transfer row, from its fields and the row's opcode (30_encoding.md R86, R97). -/
theorem encodeD_of_accepts {op : BitVec 11} (h : o.accepts w = true) (hop : fixes o 21 op = true)
    (hz : fixes o 10 0#2 = true) : encodeD op (fieldDtOffset w) (fieldRn w) (fieldRd w) = w := by
  rw [← bits_eq_of_fixes hop h, encodeD_fields w (bits_eq_of_fixes hz h)]

/-- The word of B's row, from its target and the row's opcode (30_encoding.md R87, R92). -/
theorem encodeB_of_accepts {op : BitVec 6} (pc : Word) (h : o.accepts w = true) (hop : fixes o 26 op = true) :
    encodeB op (branchTarget pc w - pc) = w := by
  rw [← bits_eq_of_fixes hop h, encodeB_fields]

/-- The word of a B.cond row, from its target and the row's opcode and condition number (30_encoding.md R88, R95). -/
theorem encodeCond_of_accepts {op : BitVec 8} {c : BitVec 5} (pc : Word) (h : o.accepts w = true)
    (hop : fixes o 24 op = true) (hc : fixes o 0 c = true) : encodeCB op (condBranchTarget pc w - pc) c = w := by
  rw [← bits_eq_of_fixes hop h, ← bits_eq_of_fixes hc h, encodeCB_fields]

/-- The word of CBNZ's row, from its fields and the row's opcode (30_encoding.md R88, R93). -/
theorem encodeCB_of_accepts {op : BitVec 8} (pc : Word) (h : o.accepts w = true) (hop : fixes o 24 op = true) :
    encodeCB op (condBranchTarget pc w - pc) (fieldRd w) = w := by
  rw [← bits_eq_of_fixes hop h]
  exact encodeCB_fields w pc

end

/-- The instruction that a row reads from a word it accepts encodes to that word (30_encoding.md R84 to R97). -/
theorem encode_ofWord {o : Op} {w : Code} (pc : Word) (h : o.accepts w = true) : encode pc (o.ofWord pc w) = w := by
  cases o with
  | add | adds | sub | subs | and | ands | orr | eor => exact encodeR_of_accepts h (by decide) (by decide)
  | lsl | lsr => exact encodeShift_of_accepts h (by decide) (by decide)
  | addi | addis | subi | subis | andi | andis | orri | eori => exact encodeI_of_accepts h (by decide)
  | b => exact encodeB_of_accepts pc h (by decide)
  | bEq | bNe | bLt | bLe | bGt | bGe | bMi | bPl | bVs | bVc =>
    exact encodeCond_of_accepts pc h (by decide) (by decide)
  | cbnz => exact encodeCB_of_accepts pc h (by decide)
  | ldur | stur | ldurb | sturb | ldurh | sturh | ldursw | sturw => exact encodeD_of_accepts h (by decide) (by decide)

theorem branchFits_branchTarget (pc : Word) (w : Code) : branchFits pc (branchTarget pc w) = true := by
  rw [branchFits, branchTarget, add_sub_cancel_left, fitsSigned_signExtend (by decide)]

theorem condBranchFits_condBranchTarget (pc : Word) (w : Code) :
    condBranchFits pc (condBranchTarget pc w) = true := by
  rw [condBranchFits, condBranchTarget, add_sub_cancel_left, fitsSigned_signExtend (by decide)]

/-- Every field of a word is in its range, so what a row reads from it is well formed (30_encoding.md R90 to R94). -/
theorem ofWord_wellFormed (pc : Word) (w : Code) (o : Op) : (o.ofWord pc w).wellFormed pc = true := by
  cases o with
  | add | adds | sub | subs | and | ands | orr | eor | lsl | lsr => rfl
  | addi | addis | subi | subis | andi | andis | orri | eori
  | ldur | stur | ldurb | sturb | ldurh | sturh | ldursw | sturw => exact fitsSigned_signExtend (by decide) _
  | b => exact branchFits_branchTarget pc w
  | bEq | bNe | bLt | bLe | bGt | bGe | bMi | bPl | bVs | bVc | cbnz => exact condBranchFits_condBranchTarget pc w

/-- Settles O10: the decoded instruction is read by a row that accepts the word, and `ofWord_wellFormed`,
`encode_ofWord`. -/
theorem encodeOfDecode : Obligations.EncodeOfDecode := by
  intro pc w i h
  obtain ⟨o, ho, rfl⟩ := Option.map_eq_some_iff.mp h
  exact ⟨ofWord_wellFormed pc w o, encode_ofWord pc (findWord_eq_some.mp ho)⟩

/-! ## Mnemonics and bundles -/

/-- Every catalog name is found as its own row (30_encoding.md R82). -/
theorem findMnemonic_name (o : Op) : findMnemonic o.name = some o :=
  (show ∀ o ∈ Op.all, findMnemonic o.name = some o by decide) o (mem_all o)

/-- The lookup sees a mnemonic only with its case folded (30_encoding.md R82). -/
theorem findMnemonic_congr {m m' : String} (h : foldCase m = foldCase m') : findMnemonic m = findMnemonic m' := by
  rw [findMnemonic, h, ← findMnemonic]

/-- A change of characters that folding undoes does not change the lookup. -/
theorem findMnemonic_map {f : Char → Char} (hf : ∀ c : Char, (f c).toUpper = c.toUpper) (m : String) :
    findMnemonic (String.ofList (m.toList.map f)) = findMnemonic m := by
  refine findMnemonic_congr ?_
  rw [foldCase, String.toList_ofList, List.map_map, foldCase]
  exact List.map_congr_left fun c _ => hf c

/-- Settles O7: folding undoes both changes of case (`findMnemonic_map`); two names that fold alike are found as the
same row, so they are one name. -/
theorem mnemonicLookupIgnoresCase : Obligations.MnemonicLookupIgnoresCase := by
  refine ⟨findMnemonic_name, fun m => ⟨?_, ?_⟩, fun o p h => ?_, fun b h => ?_⟩
  · exact findMnemonic_map Char.toUpper_toLower_eq_toUpper m
  · exact findMnemonic_map Char.toUpper_toUpper_eq_toUpper m
  · exact Option.some.inj ((findMnemonic_name o).symm.trans ((findMnemonic_congr h).trans (findMnemonic_name p)))
  · rw [decodeBundle, h]

theorem bundle_mnemonic (i : Instr) : i.bundle.mnemonic = i.op.name := by
  cases i <;> rfl

/-- The bundle of an instruction carries it (30_encoding.md R81). -/
theorem carries_bundle (i : Instr) : carries i.bundle i := by
  cases i with
  | add | adds | sub | subs | and | ands | orr | eor | lsl | lsr
  | addi | addis | subi | subis | andi | andis | orri | eori
  | ldur | stur | ldurb | sturb | ldurh | sturh | ldursw | sturw => exact ⟨rfl, rfl, rfl⟩
  | b | bEq | bNe | bLt | bLe | bGt | bGe | bMi | bPl | bVs | bVc => exact rfl
  | cbnz => exact ⟨rfl, rfl⟩

/-- An instruction is decoded from its bundle (30_encoding.md R80 to R82). -/
theorem decodeBundle_bundle (i : Instr) : decodeBundle i.bundle = .ok i := by
  have hfind : findMnemonic i.bundle.mnemonic = some i.op := by rw [bundle_mnemonic, findMnemonic_name]
  exact ((bundleNeedsItsFormatsFields i.bundle i.op hfind).1 i).mpr ⟨rfl, carries_bundle i⟩

theorem decodeSlot_word_of_decode {pc : Word} {w : Code} {i : Instr} (h : decodeWord pc w = some i) :
    decodeSlot pc (.word w) = .ok i := by
  rw [decodeSlot, h]

/-- Settles O11: both slots decode to the instruction, by `decodeBundle_bundle` and by `decodeOfEncode`. -/
theorem wordAndBundleDecodeAlike : Obligations.WordAndBundleDecodeAlike := by
  refine fun pc i => ⟨decodeBundle_bundle i, fun h => ?_⟩
  rw [decodeSlot_word_of_decode (decodeOfEncode pc i h)]
  exact (decodeBundle_bundle i).symm

/-- Settles O1: the decoder evaluated on each listed word. -/
theorem decodesTheManualsWords : Obligations.DecodesTheManualsWords := by
  unfold Obligations.DecodesTheManualsWords
  decide

end Sys2Proof.Machine
end

section
/-!
The flag functions and the results of the register and immediate instructions (40_arithmetic.md R120 to R137,
41_immediate.md R160 to R168). Every one of these instructions is an `aluStep`, so one lemma, `aluStep_result`, gives
completion and frame of all of them; what is left per instruction is its result and its flags.
-/

namespace Sys2Proof.Machine

/-! ## Overflow and carry -/

/-- The overflow function is the one of signed addition (40_arithmetic.md R123). -/
theorem ovf_add (a b : Word) : ovf a b (a + b) = a.saddOverflow b := by
  rw [BitVec.saddOverflow_eq, BitVec.msb_eq_getLsbD_last, BitVec.msb_eq_getLsbD_last, BitVec.msb_eq_getLsbD_last]
  rfl

/-- Settles O25: `ovf_add`, and what the library says a signed addition overflow is. -/
theorem addOverflowIsSignedOverflow : Obligations.AddOverflowIsSignedOverflow := by
  intro a b
  rw [ovf_add, BitVec.saddOverflow, Bool.or_eq_true, decide_eq_true_eq, decide_eq_true_eq]
  exact Or.comm

/-- `neg64` is negation modulo 2^64 (00_scope.md R9). -/
theorem neg64_eq_neg (b : Word) : neg64 b = -b :=
  BitVec.eq_of_toNat_eq (by simp [neg64])

/-- The carry of a subtraction is "no borrow", but 0 for a zero subtrahend (40_arithmetic.md R126). -/
theorem carry_neg64 (a b : Word) : carry a (neg64 b) = decide (b ≠ 0#64 ∧ b.toNat ≤ a.toNat) := by
  rw [carry, neg64_eq_neg, BitVec.toNat_neg, decide_eq_decide, Ne, ← BitVec.toNat_inj, BitVec.toNat_ofNat]
  have ha := a.isLt
  have hb := b.isLt
  omega

/-- Settles O26: both clauses are `carry_neg64`. -/
theorem subtractionCarryIsNoBorrow : Obligations.SubtractionCarryIsNoBorrow :=
  fun a b => ⟨fun hb => by simp [carry_neg64, hb], by simp [carry_neg64]⟩

/-! ## Completion and frame of an ALU instruction -/

/-- An ALU instruction completes with its result in Rd and the flags of its mode; nothing else changes but the PC
(40_arithmetic.md R120, R126). -/
theorem aluStep_result (op : AluOp) (mode : FlagMode) (rd rn : Reg) (b : SecondOperand) (sh : BitVec 6) (s : State)
    {y : Word} {f : Flags} (hy : aluResult op (s.x rn) (b.value s) sh = y)
    (hf : s.flags.write (flagGen s.cfg mode (s.x rn) (b.value s) y) = f) :
    ∃ t, aluStep op mode rd rn b sh s = .next t ∧ registerResult s t rd y f := by
  subst hy
  exact ⟨_, aluStep_eq op mode rd rn b sh s, fun r => commit_x_some s _ rd r _ rfl, hf, rfl, fun _ => rfl,
    rfl, rfl, rfl⟩

/-- An ALU instruction of the mode without flags keeps them (40_arithmetic.md R126). -/
theorem aluStep_result_no_flags (op : AluOp) (rd rn : Reg) (b : SecondOperand) (sh : BitVec 6) (s : State)
    {y : Word} (hy : aluResult op (s.x rn) (b.value s) sh = y) :
    ∃ t, aluStep op .none rd rn b sh s = .next t ∧ registerResult s t rd y s.flags :=
  aluStep_result op .none rd rn b sh s hy rfl

/-! ## Instructions that write no flag -/

/-- The difference modulo 2^64 of two integers is the difference of their words (00_scope.md R9). -/
theorem ofInt_sub (x y : Int) : BitVec.ofInt 64 (x - y) = BitVec.ofInt 64 x - BitVec.ofInt 64 y := by
  rw [sub_eq_add_neg, BitVec.ofInt_add, BitVec.ofInt_neg, ← sub_eq_add_neg]

/-- Settles O29: `aluStep_result_no_flags`; sum and difference modulo 2^64 are those of words. -/
theorem registerArithmeticResults : Obligations.RegisterArithmeticResults := by
  intro s rd rn rm
  have hadd : s.x rn + s.x rm = BitVec.ofNat 64 (((s.x rn).toNat + (s.x rm).toNat) % 2 ^ 64) :=
    BitVec.eq_of_toNat_eq (by simp)
  have hsub : s.x rn - s.x rm = BitVec.ofInt 64 ((s.x rn).toNat - (s.x rm).toNat : Int) := by
    rw [ofInt_sub, BitVec.ofInt_natCast, BitVec.ofInt_natCast, BitVec.ofNat_toNat, BitVec.ofNat_toNat,
      BitVec.setWidth_eq, BitVec.setWidth_eq]
  exact ⟨aluStep_result_no_flags .add rd rn (.reg rm) 0#6 s hadd,
    aluStep_result_no_flags .sub rd rn (.reg rm) 0#6 s hsub,
    aluStep_result_no_flags .and rd rn (.reg rm) 0#6 s rfl, aluStep_result_no_flags .and rd rn (.reg rm) 0#6 s rfl,
    aluStep_result_no_flags .or rd rn (.reg rm) 0#6 s rfl, aluStep_result_no_flags .xor rd rn (.reg rm) 0#6 s rfl⟩

/-- Settles O30: `aluStep_result_no_flags`; a left shift multiplies and a right shift divides by the power of two. -/
theorem shiftResults : Obligations.ShiftResults := by
  intro s rd rn sh
  have hlsl : s.x rn <<< sh.toNat = BitVec.ofNat 64 ((s.x rn).toNat * 2 ^ sh.toNat % 2 ^ 64) :=
    BitVec.eq_of_toNat_eq (by simp [BitVec.toNat_shiftLeft, Nat.shiftLeft_eq])
  have hlsr : s.x rn >>> sh.toNat = BitVec.ofNat 64 ((s.x rn).toNat / 2 ^ sh.toNat) := by
    rw [← Nat.shiftRight_eq_div_pow, ← BitVec.toNat_ushiftRight, BitVec.ofNat_toNat, BitVec.setWidth_eq]
  exact ⟨aluStep_result_no_flags .lsl rd rn .unused sh s hlsl, aluStep_result_no_flags .lsr rd rn .unused sh s hlsr⟩

/-- Settles O32: `aluStep_result_no_flags`; the signed sum and difference modulo 2^64 are those of words. -/
theorem immediateArithmeticResults : Obligations.ImmediateArithmeticResults := by
  intro s rd rn imm
  have hadd : s.x rn + imm = BitVec.ofInt 64 ((s.x rn).toInt + imm.toInt) := by
    rw [BitVec.ofInt_add, BitVec.ofInt_toInt, BitVec.ofInt_toInt]
  have hsub : s.x rn - imm = BitVec.ofInt 64 ((s.x rn).toInt - imm.toInt) := by
    rw [ofInt_sub, BitVec.ofInt_toInt, BitVec.ofInt_toInt]
  exact ⟨aluStep_result_no_flags .add rd rn (.imm imm) 0#6 s hadd,
    aluStep_result_no_flags .sub rd rn (.imm imm) 0#6 s hsub,
    aluStep_result_no_flags .and rd rn (.imm imm) 0#6 s rfl, aluStep_result_no_flags .and rd rn (.imm imm) 0#6 s rfl,
    aluStep_result_no_flags .or rd rn (.imm imm) 0#6 s rfl, aluStep_result_no_flags .xor rd rn (.imm imm) 0#6 s rfl⟩

/-! ## Instructions that write flags -/

/-- The overflow function as a decision about bits 63 (40_arithmetic.md R123). -/
theorem ovf_eq_decide (a b r : Word) :
    ovf a b r = decide (a.getLsbD 63 = b.getLsbD 63 ∧ r.getLsbD 63 ≠ a.getLsbD 63) := by
  simp [ovf, sign, bne, Bool.beq_eq_decide_eq]

theorem zflag_eq_decide (r : Word) : zflag r = decide (r = 0#64) := Bool.beq_eq_decide_eq r _

/-- A difference is zero exactly when the operands are equal. -/
theorem zflag_sub (a b : Word) : zflag (a - b) = decide (a = b) := by
  rw [zflag_eq_decide, decide_eq_decide]
  exact sub_eq_zero

/-- The flags of an addition that writes all four, from the operands (40_arithmetic.md R128). -/
theorem flagGen_addCV (s : State) (a b : Word) :
    s.flags.write (flagGen s.cfg .addCV a b (a + b)) =
      { n := (a + b).getLsbD 63, z := decide (a + b = 0#64), c := decide (2 ^ 64 ≤ a.toNat + b.toNat),
        v := decide (a.getLsbD 63 = b.getLsbD 63 ∧ (a + b).getLsbD 63 ≠ a.getLsbD 63) } := by
  rw [flagGen, flags_write_all, ovf_eq_decide, zflag_eq_decide]
  rfl

/-- The flags of ADDIS, from the operands: C by the policy (41_immediate.md R162). -/
theorem flagGen_addV (s : State) (a b : Word) :
    s.flags.write (flagGen s.cfg .addV a b (a + b)) =
      { n := (a + b).getLsbD 63, z := decide (a + b = 0#64),
        c := match s.cfg.addisC with
          | .clear => false
          | .preserve => s.flags.c
        v := decide (a.getLsbD 63 = b.getLsbD 63 ∧ (a + b).getLsbD 63 ≠ a.getLsbD 63) } := by
  rw [flagGen, ovf_eq_decide, zflag_eq_decide]
  cases h : s.cfg.addisC <;> rfl

/-- The flags of a subtraction, from the operands: V by the overflow rule (40_arithmetic.md R130, R125). -/
theorem flagGen_subCV (s : State) (a b : Word) :
    s.flags.write (flagGen s.cfg .subCV a b (a - b)) =
      { n := (a - b).getLsbD 63, z := decide (a = b), c := decide (b ≠ 0#64 ∧ b.toNat ≤ a.toNat),
        v := match s.cfg.subV with
          | .literal => decide (a.getLsbD 63 = b.getLsbD 63 ∧ (a - b).getLsbD 63 ≠ a.getLsbD 63)
          | .negated => decide (a.getLsbD 63 = (-b).getLsbD 63 ∧ (a - b).getLsbD 63 ≠ a.getLsbD 63) } := by
  rw [flagGen, flags_write_all, carry_neg64, zflag_sub]
  cases s.cfg.subV <;> simp only [vsub, neg64_eq_neg, ovf_eq_decide] <;> rfl

/-- Settles O31: `aluStep_result` with `flagGen_addCV` and `flagGen_subCV`. -/
theorem flagSettingRegisterResults : Obligations.FlagSettingRegisterResults :=
  fun s rd rn rm => ⟨aluStep_result .add .addCV rd rn (.reg rm) 0#6 s rfl (flagGen_addCV s _ _),
    aluStep_result .sub .subCV rd rn (.reg rm) 0#6 s rfl (flagGen_subCV s _ _)⟩

/-- Settles O33: `aluStep_result` with `flagGen_addV` and `flagGen_subCV`. -/
theorem flagSettingImmediateResults : Obligations.FlagSettingImmediateResults :=
  fun s rd rn imm => ⟨aluStep_result .add .addV rd rn (.imm imm) 0#6 s rfl (flagGen_addV s _ _),
    aluStep_result .sub .subCV rd rn (.imm imm) 0#6 s rfl (flagGen_subCV s _ _)⟩

/-! ## SUBS and then a signed branch -/

/-- The flags that SUBS leaves (40_arithmetic.md R130). -/
theorem flags_of_subs {s t : State} {rd rn rm : Reg} (h : exec (.subs rd rn rm) s = .next t) :
    t.flags.n = nflag (s.x rn - s.x rm) ∧ t.flags.v = vsub s.cfg.subV (s.x rn) (s.x rm) (s.x rn - s.x rm) := by
  cases h
  exact ⟨rfl, rfl⟩

/-- B.GE reads the opposite of B.LT (42_branch.md R191). -/
theorem ge_holds_eq_not_lt (f : Flags) : Cond.ge.holds f = !Cond.lt.holds f := by
  simp [Cond.holds, bne]

/-- Under the negated rule, V is the overflow of the signed difference, but for the subtrahend -2^63, which has no
negation (40_arithmetic.md R125). -/
theorem vsub_negated_iff {a b : Word} (hb : b ≠ 0x8000000000000000#64) :
    vsub .negated a b (a - b) = true ↔ a.toInt - b.toInt < -(2 ^ 63) ∨ 2 ^ 63 ≤ a.toInt - b.toInt := by
  have hneg : (-b).toInt = -b.toInt := BitVec.toInt_neg_of_ne_intMin hb
  rw [vsub, neg64_eq_neg, sub_eq_add_neg, addOverflowIsSignedOverflow, hneg, ← sub_eq_add_neg]

/-- The negated rule makes N and V differ exactly when `a < b`, signed (42_branch.md R191). -/
theorem nflag_ne_vsub_negated_iff {a b : Word} (hb : b ≠ 0x8000000000000000#64) :
    (nflag (a - b) != vsub .negated a b (a - b)) = true ↔ a.toInt < b.toInt := by
  have ha_lo : -(2 ^ 63) ≤ a.toInt := BitVec.le_toInt a
  have ha_hi : a.toInt < 2 ^ 63 := BitVec.toInt_lt
  have hb_lo : -(2 ^ 63) ≤ b.toInt := BitVec.le_toInt b
  have hb_hi : b.toInt < 2 ^ 63 := BitVec.toInt_lt
  have hn : nflag (a - b) = true ↔ (a.toInt - b.toInt).bmod (2 ^ 64) < 0 := by
    rw [nflag, sign_eq_decide, decide_eq_true_eq, BitVec.toInt_sub]
  rw [bne_iff_ne, Ne, Bool.eq_iff_iff, hn, vsub_negated_iff hb, Int.bmod_def]
  omega

/-- Settles O28: the flags of SUBS; under the literal rule V by the operands' signs, under the negated rule
`nflag_ne_vsub_negated_iff`. -/
theorem compareThenSignedBranch : Obligations.CompareThenSignedBranch := by
  intro s t rd rn rm h
  obtain ⟨hn, hv⟩ := flags_of_subs h
  simp only [ge_holds_eq_not_lt]
  have hlt : Cond.lt.holds t.flags = (t.flags.n != t.flags.v) := rfl
  refine ⟨fun hlit => ?literal, fun hneg hb => ?negated⟩
  case literal =>
    obtain ⟨-, -, hpos, hneg, hdiff⟩ := subtractionOverflowRules.2 (s.x rn) (s.x rm)
    rw [hlit] at hv
    refine ⟨fun ha hb => ?_, fun ha hb => ?_, fun hab => ?_⟩
    · simp [hlt, hv, hpos ha hb, hn]
    · simp [hlt, hv, hneg ha hb, hn]
    · simp [hlt, hv, hdiff hab]
  case negated =>
    have hiff := nflag_ne_vsub_negated_iff (a := s.x rn) hb
    rw [← hneg, ← hn, ← hv, ← hlt] at hiff
    exact ⟨hiff, by rw [Bool.not_eq_true', Bool.eq_false_iff, Ne, hiff, not_lt]⟩

end Sys2Proof.Machine
end

section
/-!
Data memory and the data transfers (20_memory.md R50 to R62, 44_data_transfer.md R230 to R239). A canonical memory lists
exactly the bytes that differ from the fill (`mem_iff_read`), so it is determined by its reads. Loads and stores commit
one access (`loadStep_of_allowed`, `storeStep_of_allowed`); a read of what was just stored gives the stored bytes back
(`memRead_lsStore`).
-/

namespace Sys2Proof.Machine

/-! ## The canonical form -/

/-- Settles O45: a read inside the write, a read outside it, and the canonical form kept. -/
theorem writeChangesExactlyItsBytes : Obligations.WriteChangesExactlyItsBytes :=
  fun m ea n v hm => ⟨fun _ => memWrite_read_inside hm ea n v, fun _ => memWrite_read_outside m ea n v,
    memWrite_wf hm ea n v⟩

/-- In a memory with rising addresses every entry is the byte read at its address. -/
theorem read_of_mem {m : Memory} (hs : List.Pairwise (fun p q => p.1 < q.1) m) {p : Host.Cell} (hp : p ∈ m) :
    m.read p.1 = p.2 := by
  induction m with
  | nil => cases hp
  | cons q rest ih =>
    obtain ⟨hhead, hrest⟩ := List.pairwise_cons.mp hs
    rcases List.mem_cons.mp hp with rfl | hp
    · simp [Memory.read]
    · simp [Memory.read, Nat.ne_of_gt (hhead p hp), ih hrest hp]

/-- An address that does not read as the fill is listed, with its byte. -/
theorem mem_of_read {m : Memory} {a : Nat} (h : m.read a ≠ Memory.fill) : (a, m.read a) ∈ m := by
  induction m with
  | nil => exact absurd rfl h
  | cons q rest ih =>
    by_cases ha : a = q.1
    · simp [Memory.read, ha]
    · simp only [Memory.read, ha, if_false] at h ⊢
      exact List.mem_cons_of_mem _ (ih h)

/-- A canonical memory lists exactly the bytes that do not read as the fill (log 5). -/
theorem mem_iff_read {m : Memory} (h : m.wf) (p : Host.Cell) : p ∈ m ↔ m.read p.1 = p.2 ∧ p.2 ≠ Memory.fill := by
  refine ⟨fun hp => ⟨read_of_mem h.1 hp, h.2 p hp⟩, fun ⟨hr, hne⟩ => ?_⟩
  have hmem := mem_of_read (m := m) (a := p.1) (hr.symm ▸ hne)
  rwa [hr] at hmem

/-- Settles O46: equal reads make equal entries (`mem_iff_read`), and two lists with the same entries, both with rising
addresses, are equal. -/
theorem canonicalMemoriesAreEqual : Obligations.CanonicalMemoriesAreEqual := by
  intro m m' hm hm' hread
  have hnodup {l : Memory} (h : l.wf) : l.Nodup := h.1.imp fun hlt heq => Nat.ne_of_lt hlt (congrArg Prod.fst heq)
  have hperm : m.Perm m' := (List.perm_ext_iff_of_nodup (hnodup hm) (hnodup hm')).mpr fun p => by
    rw [mem_iff_read hm, mem_iff_read hm', hread]
  exact hperm.eq_of_pairwise (fun _ _ _ _ hlt hgt => absurd hgt (Nat.lt_asymm hlt)) hm.1 hm'.1

/-! ## Addresses -/

/-- Settles O37: addition of words is modulo 2^64, in either reading of the offset; a hardwired register 31 reads 0. -/
theorem effectiveAddressWraps : Obligations.EffectiveAddressWraps := by
  refine fun s rn imm => ⟨BitVec.toNat_add .., ?_, fun h => ?_⟩
  · rw [BitVec.ofInt_add, BitVec.ofInt_toInt, BitVec.ofInt_natCast, BitVec.ofNat_toNat, BitVec.setWidth_eq,
      effectiveAddress]
  · rw [effectiveAddress, x_zero_of_hardwired s h, BitVec.zero_add]

/-! ## Loads -/

/-- A number read with one more byte at the high end (20_memory.md R53). -/
theorem littleEndian_succ (s : State) (a n : Nat) :
    littleEndian s a (n + 1) = (s.byteAt (a + n)).toNat * 2 ^ (8 * n) + littleEndian s a n := by
  induction n generalizing a with
  | zero => simp [littleEndian]
  | succ n ih =>
    rw [littleEndian, ih (a + 1), littleEndian, Nat.add_assoc a 1 n, Nat.add_comm 1 n, Nat.mul_succ, Nat.pow_add]
    ring

/-- A multi-byte read as a number (20_memory.md R53). -/
theorem memRead_toNat (s : State) (a n : Nat) : (memRead s.mem a n).toNat = littleEndian s a n := by
  induction n with
  | zero => rfl
  | succ n ih =>
    rw [memRead, BitVec.toNat_cast, BitVec.toNat_append, ← Nat.shiftLeft_add_eq_or_of_lt (memRead s.mem a n).isLt,
      Nat.shiftLeft_eq, ih, littleEndian_succ]
    rfl

/-- A load without sign extension gives the bytes read as a number (20_memory.md R62). -/
theorem lsLoad_zext (s : State) (ea : Word) (size : LsSize) :
    lsLoad s.mem ea size false = BitVec.ofNat 64 (littleEndian s ea.toNat size.bytes) := by
  rw [← memRead_toNat, BitVec.ofNat_toNat]
  rfl

/-- A word load with sign extension gives the signed reading of the 4 bytes (20_memory.md R62). -/
theorem lsLoad_word_sext (s : State) (ea : Word) :
    lsLoad s.mem ea .word true = BitVec.ofInt 64 (BitVec.ofNat 32 (littleEndian s ea.toNat 4)).toInt := by
  rw [← memRead_toNat, BitVec.ofNat_toNat, BitVec.setWidth_eq]
  rfl

section
variable {s : State} {size : LsSize} {rn : Reg} {imm : Word}

/-- A load whose access is allowed commits the loaded value (44_data_transfer.md R231). -/
theorem loadStep_of_allowed (sext : Bool) (rt : Reg) (h : accessAllowed s (effectiveAddress s rn imm) size.bytes) :
    loadStep size sext rt rn imm s =
      .next (commit s { wreg := some (rt, lsLoad s.mem (effectiveAddress s rn imm) size sext) }) := by
  rw [loadStep_eq, lsCheck_of_allowed h]

/-- A store whose access is allowed commits its bytes (44_data_transfer.md R231). -/
theorem storeStep_of_allowed (rt : Reg) (h : accessAllowed s (effectiveAddress s rn imm) size.bytes) :
    storeStep size rt rn imm s =
      .next (commit s { wmem := some (lsStore (effectiveAddress s rn imm) size (s.x rt)) }) := by
  rw [storeStep_eq, lsCheck_of_allowed h]

/-- A load whose access is allowed completes with its value in Rt; nothing else changes but the PC. -/
theorem loadStep_result (sext : Bool) (rt : Reg) {v : Word}
    (hv : lsLoad s.mem (effectiveAddress s rn imm) size sext = v)
    (h : accessAllowed s (effectiveAddress s rn imm) size.bytes) :
    ∃ t, loadStep size sext rt rn imm s = .next t ∧ registerResult s t rt v s.flags := by
  subst hv
  exact ⟨_, loadStep_of_allowed sext rt h, fun r => commit_x_some s _ rt r _ rfl, rfl, rfl, fun _ => rfl, rfl, rfl, rfl⟩

end

/-- Settles O38: `loadStep_result` at each width, with the value by `lsLoad_zext` or `lsLoad_word_sext`. -/
theorem loadResults : Obligations.LoadResults :=
  fun s rt _ _ => ⟨loadStep_result (size := .double) false rt (lsLoad_zext s _ _),
    loadStep_result (size := .byte) false rt (lsLoad_zext s _ _),
    loadStep_result (size := .half) false rt (lsLoad_zext s _ _),
    loadStep_result (size := .word) true rt (lsLoad_word_sext s _)⟩

/-! ## Stores -/

/-- No access is wider than a register (20_memory.md R60). -/
theorem bytes_le_eight (size : LsSize) : size.bytes ≤ 8 := by
  cases size <;> decide

/-- The bytes of the pending write are the low bytes of the register (20_memory.md R62). -/
theorem lsStore_value_byte (ea w : Word) {size : LsSize} {i : Nat} (hi : i < size.bytes) :
    (lsStore ea size w).value.extractLsb' (8 * i) 8 = w.extractLsb' (8 * i) 8 := by
  have hle := bytes_le_eight size
  rw [lsStore, BitVec.extractLsb'_setWidth_of_le (by omega), BitVec.extractLsb'_setWidth_of_le (by omega)]

/-- A store whose access is allowed completes with the low bytes of Rt at its address; nothing else changes but the PC
(20_memory.md R54, R62). -/
theorem storeStep_result {s : State} {size : LsSize} {rn : Reg} {imm : Word} (rt : Reg) (hm : s.mem.wf)
    (h : accessAllowed s (effectiveAddress s rn imm) size.bytes) :
    ∃ t, storeStep size rt rn imm s = .next t ∧
      storeResult s t (effectiveAddress s rn imm) size.bytes (s.x rt) := by
  refine ⟨_, storeStep_of_allowed rt h, fun r => commit_x_none s _ r rfl, rfl, rfl, ⟨rfl, rfl, rfl⟩,
    fun a => memWrite_read_outside s.mem _ size.bytes _, fun i hi => ?_⟩
  rw [← lsStore_value_byte (effectiveAddress s rn imm) (s.x rt) hi]
  exact memWrite_read_inside hm _ _ _ hi

/-- Settles O39: `storeStep_result` at each width. -/
theorem storeResults : Obligations.StoreResults :=
  fun _ rt _ _ hm => ⟨storeStep_result (size := .double) rt hm, storeStep_result (size := .byte) rt hm,
    storeStep_result (size := .half) rt hm, storeStep_result (size := .word) rt hm⟩

/-! ## A load after a store -/

/-- A read of what was just stored gives the low bytes of the stored register (20_memory.md R53, R54). -/
theorem memRead_lsStore {m : Memory} (hm : m.wf) (ea w : Word) (size : LsSize) :
    memRead (commitMem m (some (lsStore ea size w))) ea.toNat size.bytes = w.setWidth (8 * size.bytes) := by
  have hle := bytes_le_eight size
  have hread := memRead_memWrite_inside hm ea.toNat size.bytes (lsStore ea size w).value (d := 0) (k := size.bytes)
    (by omega)
  rw [commitMem_some]
  refine hread.trans ?_
  rw [Nat.mul_zero, ← BitVec.setWidth_eq_extractLsb' (by omega), lsStore, BitVec.setWidth_setWidth_of_le _ (by omega),
    BitVec.setWidth_eq]

/-- A load of what was just stored gives the low bytes of the stored register, extended (20_memory.md R62). -/
theorem lsLoad_lsStore {m : Memory} (hm : m.wf) (ea w : Word) (size : LsSize) (sext : Bool) :
    lsLoad (commitMem m (some (lsStore ea size w))) ea size sext =
      if sext then (w.setWidth (8 * size.bytes)).signExtend 64 else (w.setWidth (8 * size.bytes)).setWidth 64 := by
  rw [lsLoad, memRead_lsStore hm]

/-- A load of the width just stored, at the same base and offset, completes with the stored bytes, extended
(44_data_transfer.md R231). -/
theorem store_then_load {s : State} {size : LsSize} (sext : Bool) {rt rt' rn : Reg} {imm : Word} (hm : s.mem.wf)
    (hrt' : rt' ≠ 31#5) (h : accessAllowed s (effectiveAddress s rn imm) size.bytes) :
    ∃ t u, storeStep size rt rn imm s = .next t ∧ loadStep size sext rt' rn imm t = .next u ∧
      u.x rt' = if sext then ((s.x rt).setWidth (8 * size.bytes)).signExtend 64
        else ((s.x rt).setWidth (8 * size.bytes)).setWidth 64 := by
  refine ⟨_, _, storeStep_of_allowed rt h, loadStep_of_allowed sext rt' h, ?_⟩
  rw [commit_x_some _ _ rt' rt' _ rfl, if_pos ⟨rfl, fun h31 => hrt' h31.2⟩]
  exact lsLoad_lsStore hm (effectiveAddress s rn imm) (s.x rt) size sext

/-- Settles O41: `store_then_load` at the doubleword and at the word with sign extension. -/
theorem storeThenLoadRoundTrips : Obligations.StoreThenLoadRoundTrips := by
  refine fun s rt rt' rn imm hm hrt' => ⟨fun h => ?_, fun h => ?_⟩
  · obtain ⟨t, u, hstore, hload, hu⟩ := store_then_load (size := .double) (rt := rt) false hm hrt' h
    exact ⟨t, u, hstore, hload, hu.trans (BitVec.setWidth_eq _ |>.trans (BitVec.setWidth_eq _))⟩
  · exact store_then_load (size := .word) (rt := rt) true hm hrt' h

end Sys2Proof.Machine
end

section
/-!
What an instruction and a step write and read. `WritesOnly` gives the frame of an instruction; `step_outcome` says in
one lemma what every step does, a commit or a record; and a step depends on its state only through what `ReadsAlike`
lists, which leaves out the flag C (10_state.md R28) and the stored word of a hardwired register 31 (log 13).
-/

namespace Sys2Proof.Machine

/-! ## The step and its instruction -/

/-- Settles O12: `step_of_decode`. -/
theorem stepRunsTheDecodedInstruction : Obligations.StepRunsTheDecodedInstruction :=
  fun _ _ _ hf hs hd => step_of_decode hf hs hd

/-- Settles O34: B commits no write but its target. -/
theorem unconditionalBranchResult : Obligations.UnconditionalBranchResult :=
  fun s target => congrArg Host.Outcome.next
    (commit_eq_of_no_write (s := s) (e := { pcSrc := .instrTarget, target := target }) rfl rfl rfl)

/-- The placed word stands in the slot of the PC, also past the end of the program (log 6). -/
theorem placeWord_getElem? (program : List Slot) (pc : Nat) (w : Code) :
    (placeWord program pc w)[pc]? = some (.word w) := by
  have hlen : (program.take pc ++ List.replicate (pc - program.length) (Slot.word 0#32)).length = pc := by
    simp only [List.length_append, List.length_take, List.length_replicate]
    omega
  rw [placeWord, List.getElem?_append_right (Nat.le_of_eq hlen), hlen, Nat.sub_self, List.getElem?_cons_zero]

theorem withFetchWord_not_faulted (s : State) (nbits w : Nat) : (s.withFetchWord nbits w).fault.faulted = false := by
  rw [withFetchWord_fault]
  split
  · rfl
  · exact Bool.eq_false_iff.mpr ‹_›

/-- Settles O13: the placed word is fetched, and decodes at the unchanged PC. -/
theorem placedWordRunsNext : Obligations.PlacedWordRunsNext := by
  intro s nbits w i h
  exact step_of_decode (withFetchWord_not_faulted s nbits w) (placeWord_getElem? ..) (decodeSlot_word_of_decode h)

/-! ## What an instruction writes -/

/-- The effects write the destination of the instruction and the bytes it stores to, and no others. -/
def WritesOnly (s : State) (i : Instr) (e : Effects) : Prop :=
  e.wreg.map Prod.fst = destination i ∧ e.wmem.map (fun q => (q.addr, q.n)) = storedBytes s i

theorem writesOnly_of_no_write {s : State} {i : Instr} {e : Effects} (hreg : e.wreg = none) (hmem : e.wmem = none)
    (hd : destination i = none) (hb : storedBytes s i = none) : WritesOnly s i e := by
  rw [WritesOnly, hreg, hmem, hd, hb]
  exact ⟨rfl, rfl⟩

theorem condBranchEffects_wreg (c : Cond) (target : Word) (s : State) :
    (condBranchEffects c target s).wreg = none := by
  unfold condBranchEffects; split <;> rfl

/-- A store commits the write of its size at its address, or faults (44_data_transfer.md R231). -/
theorem storeStep_settlesWith_bytes {s : State} {P : Effects → Prop} (size : LsSize) (rt rn : Reg) (imm : Word)
    (hP : P { wmem := some (lsStore (effectiveAddress s rn imm) size (s.x rt)) }) :
    SettlesWith s P (storeStep size rt rn imm s) := by
  rw [storeStep_eq]
  split
  · exact .inr ⟨_, _, rfl⟩
  · exact settlesWith_commit hP

/-- Every instruction writes only its destination and its stored bytes (10_state.md R24, 20_memory.md R54). -/
theorem exec_writesOnly (i : Instr) (s : State) : SettlesWith s (WritesOnly s i) (exec i s) := by
  cases i with
  | add | adds | sub | subs | and | ands | orr | eor | lsl | lsr
  | addi | addis | subi | subis | andi | andis | orri | eori =>
    exact settlesWith_commit (e := aluEffects ..) ⟨rfl, rfl⟩
  | b => exact settlesWith_commit (writesOnly_of_no_write rfl rfl rfl rfl)
  | bEq | bNe | bLt | bLe | bGt | bGe | bMi | bPl | bVs | bVc =>
    exact settlesWith_commit
      (writesOnly_of_no_write (condBranchEffects_wreg ..) (condBranchEffects_wmem ..) rfl rfl)
  | cbnz =>
    exact settlesWith_commit (writesOnly_of_no_write (cbnzEffects_wreg ..) (cbnzEffects_wmem ..) rfl rfl)
  | ldur | ldurb | ldurh | ldursw => exact loadStep_settlesWith _ _ _ _ _ fun _ => ⟨rfl, rfl⟩
  | stur | sturb | sturh | sturw => exact storeStep_settlesWith_bytes _ _ _ _ ⟨rfl, rfl⟩

/-- A register that the effects do not name reads as before. -/
theorem commit_x_of_ne {s : State} {e : Effects} {r : Reg} (h : e.wreg.map Prod.fst ≠ some r) :
    (commit s e).x r = s.x r := by
  cases hw : e.wreg with
  | none => exact commit_x_none s e r hw
  | some write =>
    obtain ⟨wa, wd⟩ := write
    have hne : r ≠ wa := fun hr => h (by rw [hw, hr]; rfl)
    rw [commit_x_some s e wa r wd hw, if_neg fun hr => hne hr.1]

/-- A byte outside the pending write of the effects reads as before (20_memory.md R54). -/
theorem commit_byteAt_of_outside {s : State} {e : Effects} {a : Nat}
    (h : ∀ q, e.wmem = some q → a < q.addr.toNat ∨ q.addr.toNat + q.n ≤ a) :
    (commit s e).byteAt a = s.byteAt a := by
  rw [State.byteAt, commit_mem]
  cases hw : e.wmem with
  | none => rfl
  | some q => exact memWrite_read_outside _ _ _ _ (h q hw)

/-- Settles O21: `exec_writesOnly`, with the frame of a commit; a fault changes no register and no byte. -/
theorem instructionsWriteOnlyTheirDestinations : Obligations.InstructionsWriteOnlyTheirDestinations := by
  intro i s t h
  obtain ⟨e, rfl, hreg, hmem⟩ | ⟨k, info, rfl⟩ := settlesWith_next (h ▸ exec_writesOnly i s)
  · refine ⟨fun r hr => commit_x_of_ne (hreg ▸ hr), fun a ha => commit_byteAt_of_outside fun q hq => ?_⟩
    rwa [← hmem, hq] at ha
  · exact ⟨fun r _ => raiseFault_x .., fun a _ => raiseFault_byteAt ..⟩

/-! ## What a step does -/

/-- A step of `s` ends in `t`: it commits effects that store in range, or records a fault, with info 0 for an invalid
bundle and misalignment only where it is checked (10_state.md R38, 60_exceptions.md R270, R274). -/
def CommitsOrRecords (s t : State) : Prop :=
  (∃ e, t = commit s e ∧ storesInRange s.cfg e) ∨
  ∃ k info, t = raiseFault k info s ∧ (k = .invalidOperandBundle → info = 0#64) ∧
    (k = .addressMisaligned → s.cfg.alignCheck = true)

theorem exec_commitsOrRecords {i : Instr} {s t : State} (h : exec i s = .next t) : CommitsOrRecords s t := by
  obtain ⟨e, he, hr⟩ | ⟨k, ea, hk, hkind⟩ := h ▸ exec_cases i s
  · exact .inl ⟨e, Host.Outcome.next.inj he, hr⟩
  · refine .inr ⟨k, ea, Host.Outcome.next.inj hk, ?_, ?_⟩
    · rintro rfl
      simp at hkind
    · rintro rfl
      simpa using hkind

theorem decodeFault_commitsOrRecords (s : State) (d : DecodeFault) :
    CommitsOrRecords s (raiseFault (decodeFaultEntry d).1 (decodeFaultEntry d).2 s) := by
  cases d with
  | unknownMnemonic info => exact .inr ⟨.unknownMnemonic, info, rfl, nofun, nofun⟩
  | invalidOperandBundle => exact .inr ⟨.invalidOperandBundle, 0#64, rfl, fun _ => rfl, nofun⟩

/-- Every step is taken by an unhalted state with its PC in the program, and commits or records. -/
theorem step_outcome {s t : State} (h : step s = .next t) :
    s.fault.faulted = false ∧ s.pc.toNat < s.program.length ∧ CommitsOrRecords s t := by
  obtain ⟨hf, slot, hs, ⟨d, -, rfl⟩ | ⟨i, -, hexec⟩⟩ := step_cases h
  · exact ⟨hf, (List.getElem?_eq_some_iff.mp hs).1, decodeFault_commitsOrRecords s d⟩
  · exact ⟨hf, (List.getElem?_eq_some_iff.mp hs).1, exec_commitsOrRecords hexec⟩

/-- The codes that the record can hold after a fault (60_exceptions.md R270). -/
theorem code_mem (k : FaultKind) : k.code ∈ [1#3, 2#3, 3#3, 4#3] := by
  cases k <;> decide

/-- Settles O16: a step that commits leaves the record clear of a fault, so the step recorded one, and a halted state
has no step. -/
theorem faultCommitsOnlyItsRecord : Obligations.FaultCommitsOnlyItsRecord := by
  intro s t h ht
  obtain ⟨hf, -, ⟨e, rfl, -⟩ | ⟨k, info, rfl, -⟩⟩ := step_outcome h
  · rw [commit_fault, hf] at ht
    cases ht
  · exact ⟨rfl, rfl, code_mem k, step_of_faulted rfl⟩

/-- Settles O22: neither a commit nor a fault writes the program or the parameters. -/
theorem programIsNeverWritten : Obligations.ProgramIsNeverWritten := by
  intro s t h
  obtain ⟨-, -, ⟨e, rfl, -⟩ | ⟨k, info, rfl, -⟩⟩ := step_outcome h
  · exact ⟨commit_program s e, commit_cfg s e⟩
  · exact ⟨raiseFault_program s k info, raiseFault_cfg s k info⟩

/-! ## What a step reads -/

/-- The two states agree on everything a step reads: the registers as the ports show them, the conditions, the memory,
the parameters, the PC, the program and whether the block is halted. -/
structure ReadsAlike (s s' : State) : Prop where
  x : ∀ r, s'.x r = s.x r
  holds : ∀ c : Cond, c.holds s'.flags = c.holds s.flags
  mem : s'.mem = s.mem
  cfg : s'.cfg = s.cfg
  pc : s'.pc = s.pc
  program : s'.program = s.program
  faulted : s'.fault.faulted = s.fault.faulted

/-- The outcomes at `s` and `s'` come from one and the same attempt. -/
def SettleAlike (s s' : State) (o o' : Host.Outcome State Fault Refusal) : Prop :=
  ∃ r : Attempt, o = settle s r ∧ o' = settle s' r

section
variable {s s' : State} (h : ReadsAlike s s')
include h

theorem aluStep_alike (op : AluOp) (mode : FlagMode) (rd rn : Reg) (b : SecondOperand) (sh : BitVec 6) :
    SettleAlike s s' (aluStep op mode rd rn b sh s) (aluStep op mode rd rn b sh s') := by
  have hb : b.value s' = b.value s := by
    cases b with
    | reg rm => exact h.x rm
    | imm | unused => rfl
  refine ⟨_, rfl, ?_⟩
  rw [aluStep, aluEffects, aluEffects, hb, h.x, h.cfg]

theorem condBranchStep_alike (c : Cond) (target : Word) :
    SettleAlike s s' (condBranchStep c target s) (condBranchStep c target s') := by
  refine ⟨_, rfl, ?_⟩
  rw [condBranchStep, condBranchEffects, condBranchEffects, h.holds]

theorem execCbnz_alike (rt : Reg) (target : Word) :
    SettleAlike s s' (execCbnz rt target s) (execCbnz rt target s') := by
  refine ⟨_, rfl, ?_⟩
  rw [execCbnz, cbnzEffects, cbnzEffects, h.x]

theorem loadStep_alike (size : LsSize) (sext : Bool) (rt rn : Reg) (imm : Word) :
    SettleAlike s s' (loadStep size sext rt rn imm s) (loadStep size sext rt rn imm s') := by
  refine ⟨_, rfl, ?_⟩
  rw [loadStep, loadAttempt, loadAttempt, effectiveAddress, effectiveAddress, h.x, h.cfg, h.mem]

theorem storeStep_alike (size : LsSize) (rt rn : Reg) (imm : Word) :
    SettleAlike s s' (storeStep size rt rn imm s) (storeStep size rt rn imm s') := by
  refine ⟨_, rfl, ?_⟩
  rw [storeStep, storeAttempt, storeAttempt, effectiveAddress, effectiveAddress, h.x, h.x, h.cfg]

/-- An instruction makes the same attempt at states that read alike. -/
theorem exec_alike (i : Instr) : SettleAlike s s' (exec i s) (exec i s') := by
  cases i with
  | add | adds | sub | subs | and | ands | orr | eor | lsl | lsr
  | addi | addis | subi | subis | andi | andis | orri | eori => exact aluStep_alike h ..
  | b target => exact ⟨.ok { pcSrc := .instrTarget, target := target }, rfl, rfl⟩
  | bEq | bNe | bLt | bLe | bGt | bGe | bMi | bPl | bVs | bVc => exact condBranchStep_alike h ..
  | cbnz => exact execCbnz_alike h ..
  | ldur | ldurb | ldurh | ldursw => exact loadStep_alike h ..
  | stur | sturb | sturh | sturw => exact storeStep_alike h ..

/-- States that read alike stop alike, or make the same attempt (10_state.md R38). -/
theorem step_alike : (∃ r, step s = .fault r ∧ step s' = .fault r) ∨ SettleAlike s s' (step s) (step s') := by
  have hfetch : fetch s' = fetch s := by rw [fetch, h.pc, h.program, ← fetch]
  rw [step, step, h.faulted, hfetch]
  cases s.fault.faulted with
  | true => exact .inl ⟨_, rfl, rfl⟩
  | false =>
    cases fetch s with
    | none => exact .inl ⟨_, rfl, rfl⟩
    | some slot =>
      right
      simp only [runSlot, h.pc, Bool.false_eq_true, if_false]
      cases decodeSlot s.pc slot with
      | error d => exact ⟨_, rfl, rfl⟩
      | ok i => exact exec_alike h i

end

/-! ## What no step reads -/

/-- C is in no condition, and is no other input of a step (10_state.md R28, 42_branch.md R191). -/
theorem readsAlike_withC (s : State) (c : Bool) : ReadsAlike s (s.withC c) where
  x _ := rfl
  holds c := by cases c <;> rfl
  mem := rfl
  cfg := rfl
  pc := rfl
  program := rfl
  faulted := rfl

/-- One attempt leaves the same state apart from C, which it writes or keeps. -/
theorem settle_withC (s : State) (c : Bool) (r : Attempt) :
    ∃ t c', settle s r = .next t ∧ settle (s.withC c) r = .next (t.withC c') := by
  cases r with
  | ok e => exact ⟨_, if e.wflag.fwe.c then e.wflag.fwd.c else c, rfl, rfl⟩
  | error fault => exact ⟨_, c, rfl, rfl⟩

/-- Settles O24: `step_alike` at a state with another C, and `settle_withC`. -/
theorem noInstructionReadsC : Obligations.NoInstructionReadsC := by
  intro s c
  obtain ⟨r, hs, hs'⟩ | ⟨r, hs, hs'⟩ := step_alike (readsAlike_withC s c)
  · rw [hs]
    exact hs'
  · obtain ⟨t, c', ht, ht'⟩ := settle_withC s c r
    rw [hs, ht]
    exact ⟨c', hs'.trans ht'⟩

/-- The read ports do not show the stored word of a hardwired register 31 (10_state.md R22). -/
theorem withStored31_x {s : State} (v : Word) (h : s.cfg.xzrHardwired = true) (r : Reg) :
    (s.withStored31 v).x r = s.x r := by
  by_cases hr : r = 31#5
  · subst hr
    exact (x_zero_of_hardwired (s.withStored31 v) h).trans (x_zero_of_hardwired s h).symm
  · have hn : 31 ≠ r.toNat := fun e => hr (BitVec.eq_of_toNat_eq e.symm)
    simp [State.x, State.withStored31, readPort, hr, hn]

theorem readsAlike_withStored31 {s : State} (v : Word) (h : s.cfg.xzrHardwired = true) :
    ReadsAlike s (s.withStored31 v) where
  x := withStored31_x v h
  holds _ := rfl
  mem := rfl
  cfg := rfl
  pc := rfl
  program := rfl
  faulted := rfl

/-- The write port neither reads nor writes the stored word of a hardwired register 31 (10_state.md R22). -/
theorem commitRegs_set31 (regs : Vector Word 32) (v : Word) (write : Option (Reg × Word)) :
    commitRegs true (regs.set 31 v) write = (commitRegs true regs write).set 31 v := by
  cases write with
  | none => rfl
  | some write =>
    obtain ⟨wa, wd⟩ := write
    by_cases hw : wa = 31#5
    · simp [writePort, hw]
    · have hn : 31 ≠ wa.toNat := fun e => hw (BitVec.eq_of_toNat_eq e.symm)
      simpa [writePort, hw] using Vector.set_comm v wd hn

/-- One attempt leaves the same state apart from the stored word, which it keeps. -/
theorem settle_withStored31 {s : State} (v : Word) (h : s.cfg.xzrHardwired = true) (r : Attempt) :
    ∃ t, settle s r = .next t ∧ settle (s.withStored31 v) r = .next (t.withStored31 v) := by
  cases r with
  | error fault => exact ⟨_, rfl, rfl⟩
  | ok e =>
    refine ⟨_, rfl, ?_⟩
    have hregs : commitRegs s.cfg.xzrHardwired (s.regs.set 31 v) e.wreg =
        (commitRegs s.cfg.xzrHardwired s.regs e.wreg).set 31 v := by rw [h, commitRegs_set31]
    rw [settle_ok, commit, State.withStored31, hregs]
    rfl

/-- Settles O43: `withStored31_x` for reads; `step_alike` at a state with another stored word, and
`settle_withStored31`. -/
theorem storedZeroRegisterIsInvisible : Obligations.StoredZeroRegisterIsInvisible := by
  intro s v h
  refine ⟨withStored31_x v h, ?_⟩
  obtain ⟨r, hs, hs'⟩ | ⟨r, hs, hs'⟩ := step_alike (readsAlike_withStored31 v h)
  · rw [hs]
    exact hs'
  · obtain ⟨t, ht, ht'⟩ := settle_withStored31 v h r
    rw [hs, ht]
    exact hs'.trans ht'

end Sys2Proof.Machine
end

section
/-!
The invariant of the machine (10_state.md R35, 20_memory.md R51, 60_exceptions.md R270 to R277; logs 5 and 13): it holds
after a launch, every step keeps it, and so it holds of every reachable state. A step is a commit or a record
(`step_outcome`), and each of the two keeps the invariant by itself (`commit_inv`, `raiseFault_inv`).
-/

namespace Sys2Proof.Machine

/-! ## Reset -/

/-- Settles O49: the fields of `State.reset`, and the reads of its registers and bytes. -/
theorem modelResetValues : Obligations.ModelResetValues := by
  refine ⟨rfl, rfl, fun r => ?_, rfl, fun a => rfl, rfl, rfl⟩
  simp [State.x, State.reset, readPort]

/-- Settles O50: the conditions of the invariant evaluated at `State.reset`. -/
theorem invariantHoldsAtReset : Obligations.InvariantHoldsAtReset := by
  unfold Obligations.InvariantHoldsAtReset
  decide

/-- A reset stores 0 in a hardwired register 31 (log 13). -/
theorem applyReset_xzrCanonical (init : InitValues) (s : State) : xzrCanonical s.cfg (applyReset init s).regs := by
  intro h
  simp [h]

/-- A reset with an allowed memory leaves the invariant, whatever the state was (70_reset_and_hazards.md R300). -/
theorem applyReset_inv {s : State} {init : InitValues} (h : launchOk s.cfg init) : (applyReset init s).Inv := by
  obtain ⟨hcfg, hwf, hrange⟩ := h
  exact ⟨hcfg, hwf, hrange, applyReset_xzrCanonical init s, rfl⟩

/-- Settles O51: a launch is a reset of the state with the program and the parameters loaded. -/
theorem invariantHoldsAfterLaunch : Obligations.InvariantHoldsAfterLaunch :=
  fun _ _ _ _ h => applyReset_inv h

/-! ## Steps -/

theorem commitMem_wf {m : Memory} (h : m.wf) (write : Option MemStore) : (commitMem m write).wf := by
  cases write with
  | none => exact h
  | some q => exact memWrite_wf h ..

theorem commitMem_inRange {cfg : Config} {m : Memory} {e : Effects} (h : memInRange cfg m) (he : storesInRange cfg e) :
    memInRange cfg (commitMem m e.wmem) := by
  cases hw : e.wmem with
  | none => exact h
  | some q => exact memWrite_inRange h _ _ _ (he q hw)

/-- A commit keeps the stored word of a hardwired register 31 (log 13). -/
theorem commitRegs_xzrCanonical {cfg : Config} {regs : Vector Word 32} (h : xzrCanonical cfg regs)
    (write : Option (Reg × Word)) : xzrCanonical cfg (commitRegs cfg.xzrHardwired regs write) := by
  intro hw
  cases write with
  | none => exact h hw
  | some write =>
    rw [hw, commitRegs_some, writePort_get31]
    exact h hw

/-- Before a fault a consistent record is clear (10_state.md R35). -/
theorem faultConsistent_iff_clear {s : State} (hf : s.fault.faulted = false) :
    faultConsistent s ↔ s.fault = FaultStatus.clear := by
  simp [faultConsistent, hf]

/-- After a fault a consistent record meets all of R270 and R277. -/
theorem faultConsistent_iff_recorded {s : State} (hf : s.fault.faulted = true) :
    faultConsistent s ↔
      1 ≤ s.fault.code.toNat ∧ s.fault.code.toNat ≤ 4 ∧ s.fault.fpc = s.pc ∧ s.pc.toNat < s.program.length ∧
      (s.fault.code = 2#3 → s.fault.info = 0#64) ∧ (s.fault.code = 4#3 → s.cfg.alignCheck = true) := by
  simp [faultConsistent, hf]

theorem code_bounds (k : FaultKind) : 1 ≤ k.code.toNat ∧ k.code.toNat ≤ 4 := by
  cases k <;> decide

theorem code_eq_two {k : FaultKind} (h : k.code = 2#3) : k = .invalidOperandBundle := by
  cases k with
  | invalidOperandBundle => rfl
  | unknownMnemonic | addressOutOfRange | addressMisaligned => exact absurd h (by decide)

theorem code_eq_four {k : FaultKind} (h : k.code = 4#3) : k = .addressMisaligned := by
  cases k with
  | addressMisaligned => rfl
  | unknownMnemonic | invalidOperandBundle | addressOutOfRange => exact absurd h (by decide)

/-- A commit of effects that store in range keeps the invariant of an unhalted state (10_state.md R39). -/
theorem commit_inv {s : State} {e : Effects} (h : s.Inv) (hf : s.fault.faulted = false)
    (he : storesInRange s.cfg e) : (commit s e).Inv := by
  obtain ⟨hcfg, hwf, hrange, hxzr, hfault⟩ := h
  refine ⟨hcfg, commitMem_wf hwf e.wmem, commitMem_inRange hrange he, commitRegs_xzrCanonical hxzr e.wreg, ?_⟩
  exact (faultConsistent_iff_clear (s := commit s e) hf).mpr ((faultConsistent_iff_clear hf).mp hfault)

/-- Fault entry keeps the invariant where the PC is in the program, and info and kind are those that R270 and R274 allow
(60_exceptions.md R277). -/
theorem raiseFault_inv {s : State} {k : FaultKind} {info : Word} (h : s.Inv) (hpc : s.pc.toNat < s.program.length)
    (hinfo : k = .invalidOperandBundle → info = 0#64) (halign : k = .addressMisaligned → s.cfg.alignCheck = true) :
    (raiseFault k info s).Inv := by
  obtain ⟨hcfg, hwf, hrange, hxzr, -⟩ := h
  refine ⟨hcfg, hwf, hrange, hxzr, (faultConsistent_iff_recorded rfl).mpr ?_⟩
  obtain ⟨hlo, hhi⟩ := code_bounds k
  exact ⟨hlo, hhi, rfl, hpc, fun hc => hinfo (code_eq_two hc), fun hc => halign (code_eq_four hc)⟩

/-- Settles O52: a step commits or records (`step_outcome`), and both keep the invariant. -/
theorem stepKeepsTheInvariant : Obligations.StepKeepsTheInvariant := by
  intro s t h hstep
  obtain ⟨hf, hpc, ⟨e, rfl, he⟩ | ⟨k, info, rfl, hinfo, halign⟩⟩ := step_outcome hstep
  · exact commit_inv h hf he
  · exact raiseFault_inv h hpc hinfo halign

/-! ## Reachable states -/

/-- The invariant holds of every state that launches, resets and steps reach (70_reset_and_hazards.md R304). -/
theorem inv_of_reachable {s : State} (h : Reachable s) : s.Inv := by
  induction h with
  | launch s cfg program init hok => exact invariantHoldsAfterLaunch s cfg program init hok
  | reset s init _ hok _ => exact applyReset_inv hok
  | step s t _ hstep ih => exact stepKeepsTheInvariant s t ih hstep

/-- A halted state with the invariant has its PC in the record, and a code that is not 0 (60_exceptions.md R277). -/
theorem record_of_halted {s : State} (h : s.Inv) (hf : s.fault.faulted = true) :
    s.fault.fpc = s.pc ∧ s.fault.code ≠ 0#3 := by
  obtain ⟨-, -, -, -, hfault⟩ := h
  obtain ⟨hcode, -, hfpc, -⟩ := (faultConsistent_iff_recorded hf).mp hfault
  refine ⟨hfpc, fun h0 => ?_⟩
  rw [h0] at hcode
  exact absurd hcode (by decide)

/-- Settles O53: `inv_of_reachable`; a state that is not halted steps or has run past its program, and a halted one
has the record that the invariant says. -/
theorem reachableStatesAreConsistent : Obligations.ReachableStatesAreConsistent := by
  intro s hs
  have hinv := inv_of_reachable hs
  refine ⟨hinv, ?_⟩
  cases hf : s.fault.faulted with
  | true => exact .inr (.inr ⟨step_of_faulted hf, record_of_halted hinv hf⟩)
  | false =>
    obtain hpc | hpc := Nat.lt_or_ge s.pc.toNat s.program.length
    · obtain ⟨t, ht⟩ := step_of_pc_lt hf hpc
      exact .inl ⟨t, ht, .step s t hs ht, (programIsNeverWritten s t ht).1⟩
    · exact .inr (.inl (step_of_length_le hf hpc))

end Sys2Proof.Machine
end
